-- ==== Sys2Proof/Word.lean ====
section
/-! DEFINITION. The words of the machine. Bits are numbered as 00_scope.md rule R8 numbers them: bit 31 is the most
significant bit of a 32-bit value and bit 0 the least significant. -/

namespace Sys2Proof

/-- A 32-bit value: DBGVCR (R20), a general register as `R[t]` moves it (R40), an instruction word (R84, R85). -/
abbrev Word := BitVec 32

/-- One byte of the memory that instructions are fetched from. -/
abbrev Byte := BitVec 8

end Sys2Proof
end

