-- ==== Sys2Proof/Config.lean ====
section
/-! DEFINITION. What an implementation fixes for a run (00_scope.md rule R6, first table), and the one free value. The
configuration is data that `State` carries and no step changes, so that a statement about every state is a statement
about every configuration. -/

namespace Sys2Proof

/-- What a reserved bit of DBGVCR does (R34, D3): one choice for all reserved bits of the register. -/
inductive Res0Mode where
  | razWi        -- reads as 0, ignores writes
  | rwNoEffect   -- stores what is written, with no effect
  deriving DecidableEq, Repr

/-- In which order the bytes of an instruction word, or of a T32 halfword, lie in memory. The spec leaves it open (R64,
D10), so both are admitted. DESIGN CHOICE (assumption 5), safe. -/
inductive ByteOrder where
  | little
  | big
  deriving DecidableEq, Repr

/-- The configuration parameters of R6, under the spec's names, and the byte order of code that R64 leaves open. -/
structure Config where
  featAA32EL1 : Bool   -- IsFeatureImplemented(FEAT_AA32EL1): the register is present (R21)
  haveEL3     : Bool   -- HaveEL(EL3)
  el3AArch32  : Bool   -- ELUsingAArch32(EL3), fixed for a run by D2
  featAA64EL3 : Bool   -- IsFeatureImplemented(FEAT_AA64EL3)
  featAA64EL2 : Bool   -- IsFeatureImplemented(FEAT_AA64EL2)
  featAA32EL2 : Bool   -- IsFeatureImplemented(FEAT_AA32EL2)
  res0Mode    : Res0Mode
  codeOrder   : ByteOrder
  deriving DecidableEq, Repr

/-- The draw `reset_value` of R47 and R151 for the reset that `State.reset` stands for: a free value under no law. It
has no body, so nothing can be proved of it (assumption 1). A later reset carries its own draw (`Act.reset`). -/
opaque Config.resetValue : Word

/-- The configuration that `State.reset` has: the register is present, and EL3 is implemented and uses AArch32, so that
an access from EL3 is allowed. DESIGN CHOICE (assumption 2): the spec fixes none of these values. -/
def Config.chosen : Config where
  featAA32EL1 := true
  haveEL3 := true
  el3AArch32 := true
  featAA64EL3 := false
  featAA64EL2 := false
  featAA32EL2 := false
  res0Mode := .razWi
  codeOrder := .little

end Sys2Proof
end

