-- ==== Sys2Proof/Syntax.lean ====
section
/-! DEFINITION. The instructions: one constructor per row of spec/opcode_table.json, and the fields that select a System
register. -/

namespace Sys2Proof

/-- The two instruction sets whose encodings R86 admits. -/
inductive InstrSet where
  | a32
  | t32
  deriving DecidableEq, Repr

/-- Which way an access moves the value (R103, R104): MRC reads DBGVCR, MCR writes it. -/
inductive Direction where
  | read
  | write
  deriving DecidableEq, Repr

/-- A location of the System register encoding space (R60), with the field widths R60 reads off the source. -/
structure SysRegLoc where
  coproc : BitVec 4
  opc1   : BitVec 3
  crn    : BitVec 4
  crm    : BitVec 4
  opc2   : BitVec 3
  deriving DecidableEq, Repr

/-- The instructions of spec/opcode_table.json. `cond` is the A32 condition field and `rt` the number of `<Rt>`, the one
free operand (R82). Every `rt` is a value here: which ones are admitted is R90's, in `Machine/Operands.lean`. -/
inductive Instr where
  | mrcA32 (cond rt : BitVec 4)   -- MRC p14, 0, <Rt>, c0, c7, 0 (A32)
  | mcrA32 (cond rt : BitVec 4)   -- MCR p14, 0, <Rt>, c0, c7, 0 (A32)
  | mrcT32 (rt : BitVec 4)        -- MRC p14, 0, <Rt>, c0, c7, 0 (T32)
  | mcrT32 (rt : BitVec 4)        -- MCR p14, 0, <Rt>, c0, c7, 0 (T32)
  deriving DecidableEq, Repr

end Sys2Proof
end

