-- ==== Sys2Proof/WellFormed.lean ====
section
/-! DEFINITION. Which instruction terms are well formed: the ones that have an encoding (R84, R88) and whose register
operand is admitted (R87, R90). -/

namespace Sys2Proof

/-- Why a term is ill formed. -/
inductive IllFormed where
  | condNever   -- A32 with cond = 0b1111: no word of the A32 set decodes to it (R88)
  | rt15        -- `t` = 15 (R90 (a))
  | rt13T32     -- `t` = 13 in the T32 encoding (R90 (b))
  deriving DecidableEq, Repr

/-- The instruction set an instruction belongs to: the "format" of its opcode-table row. -/
def Instr.iset : Instr → InstrSet
  | .mrcA32 _ _ => .a32
  | .mcrA32 _ _ => .a32
  | .mrcT32 _ => .t32
  | .mcrT32 _ => .t32

/-- An A32 term with cond = 0b1111 has no encoding (R88), every other term has one. -/
def Instr.encodable : Instr → Bool
  | .mrcA32 cond _ => cond != 0b1111#4
  | .mcrA32 cond _ => cond != 0b1111#4
  | .mrcT32 _ => true
  | .mcrT32 _ => true

/-- The check on an A32 operand pair. -/
def checkA32 (cond rt : BitVec 4) : Option IllFormed :=
  if cond = 0b1111#4 then some .condNever else if rt = 15#4 then some .rt15 else none

/-- The check on a T32 operand. -/
def checkT32 (rt : BitVec 4) : Option IllFormed :=
  if rt = 15#4 then some .rt15 else if rt = 13#4 then some .rt13T32 else none

/-- What is wrong with a term, or `none` if it is well formed. -/
def Instr.illFormed : Instr → Option IllFormed
  | .mrcA32 cond rt => checkA32 cond rt
  | .mcrA32 cond rt => checkA32 cond rt
  | .mrcT32 rt => checkT32 rt
  | .mcrT32 rt => checkT32 rt

/-- A well-formed instruction. -/
def Instr.wellFormed (i : Instr) : Bool := i.illFormed.isNone

end Sys2Proof
end

