-- ==== Sys2Proof/Decode.lean ====
section
/-! DEFINITION. The decoder, total on any bytes, and after it the encoder. The decoder reads an instruction word by its
fields (R84, R85), looks the location up in the System register encoding space (R60, R82) and answers "not mine" for
every other word (R88). The field positions are the spec's own "from general knowledge" (assumption 6). -/

namespace Sys2Proof

/-- Where DBGVCR lies in the System register encoding space (R60, R82). -/
def dbgvcrLoc : SysRegLoc where
  coproc := 0b1110#4
  opc1 := 0b000#3
  crn := 0b0000#4
  crm := 0b0111#4
  opc2 := 0b000#3

/-- Why the decoder gives no instruction. -/
inductive DecodeRefusal where
  | notMine    -- a word that is no access to DBGVCR: outside the spec (R88)
  | tooShort   -- fewer than the four bytes of an instruction (R84, R85)
  deriving DecidableEq, Repr

/-- The fields that an MRC or MCR word has below its top four bits (R84; in T32 the same places, R85). -/
structure AccessFields where
  dir : Direction
  loc : SysRegLoc
  rt  : BitVec 4
  deriving DecidableEq, Repr

/-- The fields of a word that has the MRC and MCR format: 0b1110 in [27:24] and 1 in [4] (R84, R85). L = 1 is a read. -/
def accessFields (w : Word) : Option AccessFields :=
  if w.extractLsb' 24 4 = 0b1110#4 ∧ w.extractLsb' 4 1 = 1#1 then
    some
      { dir := if w.extractLsb' 20 1 = 1#1 then .read else .write
        loc :=
          { coproc := w.extractLsb' 8 4
            opc1 := w.extractLsb' 21 3
            crn := w.extractLsb' 16 4
            crm := w.extractLsb' 0 4
            opc2 := w.extractLsb' 5 3 }
        rt := w.extractLsb' 12 4 }
  else none

/-- The instruction of an A32 condition field and the fields below it. -/
def instrA32 (cond : BitVec 4) (f : AccessFields) : Instr :=
  match f.dir with
  | .read => .mrcA32 cond f.rt
  | .write => .mcrA32 cond f.rt

/-- The instruction of the fields of a T32 word. -/
def instrT32 (f : AccessFields) : Instr :=
  match f.dir with
  | .read => .mrcT32 f.rt
  | .write => .mcrT32 f.rt

/-- The access to DBGVCR that the fields of a word name, if they name one (R82, R88). -/
def mine (f : Option AccessFields) (i : AccessFields → Instr) : Except DecodeRefusal Instr :=
  match f with
  | some g => if g.loc = dbgvcrLoc then .ok (i g) else .error .notMine
  | none => .error .notMine

/-- R88: the instruction of a 32-bit word of the given set; a T32 word has its first halfword in bits [31:16]. -/
def decodeWord (set : InstrSet) (w : Word) : Except DecodeRefusal Instr :=
  match set with
  | .a32 =>
    if w.extractLsb' 28 4 = 0b1111#4 then .error .notMine
    else mine (accessFields w) (instrA32 (w.extractLsb' 28 4))
  | .t32 =>
    if w.extractLsb' 28 4 = 0b1110#4 then mine (accessFields w) instrT32 else .error .notMine

/-- The four bytes of an instruction word, lowest address first. A T32 word's first halfword, bits [31:16], lies at the
lower address (assumption 6), and each halfword is in the code byte order (R64 leaves that order open). -/
def bytesOfWord (order : ByteOrder) (set : InstrSet) (w : Word) : List Byte :=
  match order, set with
  | .little, .a32 => [w.extractLsb' 0 8, w.extractLsb' 8 8, w.extractLsb' 16 8, w.extractLsb' 24 8]
  | .little, .t32 => [w.extractLsb' 16 8, w.extractLsb' 24 8, w.extractLsb' 0 8, w.extractLsb' 8 8]
  | .big, _ => [w.extractLsb' 24 8, w.extractLsb' 16 8, w.extractLsb' 8 8, w.extractLsb' 0 8]

/-- The instruction word that four bytes hold, the inverse of `bytesOfWord`. -/
def wordOfBytes (order : ByteOrder) (set : InstrSet) (b0 b1 b2 b3 : Byte) : Word :=
  match order, set with
  | .little, .a32 => b3 ++ b2 ++ b1 ++ b0
  | .little, .t32 => b1 ++ b0 ++ b3 ++ b2
  | .big, _ => b0 ++ b1 ++ b2 ++ b3

/-- The first instruction of a list of bytes, and the bytes after it. -/
def decode (order : ByteOrder) (set : InstrSet) : List Byte → Except DecodeRefusal (Instr × List Byte)
  | b0 :: b1 :: b2 :: b3 :: rest =>
    match decodeWord set (wordOfBytes order set b0 b1 b2 b3) with
    | .ok i => .ok (i, rest)
    | .error e => .error e
  | _ => .error .tooShort

/-- The L bit of a direction (R84). -/
def lBit : Direction → BitVec 1
  | .read => 1#1
  | .write => 0#1

/-- The word with the given top four bits, location, direction and register, field by field as R84's figure has them. -/
def accessWord (top : BitVec 4) (loc : SysRegLoc) (dir : Direction) (rt : BitVec 4) : Word :=
  top ++ 0b1110#4 ++ loc.opc1 ++ lBit dir ++ loc.crn ++ rt ++ loc.coproc ++ loc.opc2 ++ 1#1 ++ loc.crm

/-- The word of an instruction (R84, R85); for T32 the first halfword is in bits [31:16]. -/
def encodeWord : Instr → Word
  | .mrcA32 cond rt => accessWord cond dbgvcrLoc .read rt
  | .mcrA32 cond rt => accessWord cond dbgvcrLoc .write rt
  | .mrcT32 rt => accessWord 0b1110#4 dbgvcrLoc .read rt
  | .mcrT32 rt => accessWord 0b1110#4 dbgvcrLoc .write rt

/-- The bytes of an instruction as memory holds them, lowest address first. -/
def encode (order : ByteOrder) (i : Instr) : List Byte := bytesOfWord order i.iset (encodeWord i)

/-- The instruction word of `nbits` bits whose number is `w`, the bits above `nbits` zero. -/
def tableWord (nbits w : Nat) : Word := BitVec.ofNat 32 (w % 2 ^ nbits)

/-- The instruction set of a word given without one. A word with 0b1110 in its top four bits is read as T32, where that
is fixed (R85), and any other as A32 (assumption 7). -/
def tableSet (w : Word) : InstrSet := if w.extractLsb' 28 4 = 0b1110#4 then .t32 else .a32

/-- What the decoder reads from an instruction numbered as spec/opcode_table.json numbers it: a T32 row's first halfword
is in bits [31:16] of the number, as the table says. -/
def decodeTableWord (nbits w : Nat) : Option Instr :=
  match decode .little (tableSet (tableWord nbits w))
      (bytesOfWord .little (tableSet (tableWord nbits w)) (tableWord nbits w)) with
  | .ok (i, _) => some i
  | .error _ => none

end Sys2Proof
end

