-- ==== Sys2Proof/Machine/Layout.lean ====
section
/-! DEFINITION. The three field layouts of DBGVCR (R24 to R31) and what its reserved bits do (R34, R36, R37). -/

namespace Sys2Proof.Machine

/-- The three ways the 32 bits are divided into fields (R24). -/
inductive Layout where
  | el3A32   -- L_EL3_A32: EL3 is implemented and uses AArch32
  | el3A64   -- L_EL3_A64: EL3 is implemented and uses AArch64
  | noEL3    -- L_NOEL3: EL3 is not implemented
  deriving DecidableEq, Repr

/-- R24's table. -/
def layoutOf (c : Config) : Layout :=
  match c.haveEL3, c.el3AArch32 with
  | true, true => .el3A32
  | true, false => .el3A64
  | false, _ => .noEL3

/-- The seven kinds of exception that the fields name (R128). -/
inductive Exc where
  | undef
  | svc
  | smc
  | prefetchAbort
  | dataAbort
  | irq
  | fiq
  deriving DecidableEq, Repr

/-- The three contexts that the fields name (R136). -/
inductive Ctx where
  | nonSecure
  | monitor
  | secure
  deriving DecidableEq, Repr

/-- The byte offset of an exception's vector (R69, R128). -/
def vectorOffset : Exc → Nat
  | .undef => 0x04
  | .svc => 0x08
  | .smc => 0x08
  | .prefetchAbort => 0x0C
  | .dataAbort => 0x10
  | .irq => 0x18
  | .fiq => 0x1C

/-- The bit at which a context's group of enables begins (R28). -/
def groupBase : Ctx → Nat
  | .nonSecure => 24
  | .monitor => 8
  | .secure => 0

/-- What an enable field's heading and text say: the exception, the context (none in layout L_NOEL3), the offset. -/
structure Enable where
  exc    : Exc
  ctx    : Option Ctx
  offset : Nat
  deriving DecidableEq, Repr

/-- A row of the tables of R25 to R27: bits [hi:lo], a name, and the enable, or `none` for "Reserved, RES0.". -/
structure Field where
  name   : String
  hi     : Nat
  lo     : Nat
  enable : Option Enable
  deriving DecidableEq, Repr

/-- A one-bit enable field. -/
def enableField (name : String) (bit : Nat) (exc : Exc) (ctx : Option Ctx) (offset : Nat) : Field :=
  ⟨name, bit, bit, some ⟨exc, ctx, offset⟩⟩

/-- A reserved field. -/
def reservedField (hi lo : Nat) : Field := ⟨"RES0", hi, lo, none⟩

/-- The Non-secure group, the same in both layouts that have it (R30). -/
def nonSecureFields : List Field :=
  [ enableField "NSF" 31 .fiq (some .nonSecure) 0x1C,
    enableField "NSI" 30 .irq (some .nonSecure) 0x18,
    reservedField 29 29,
    enableField "NSD" 28 .dataAbort (some .nonSecure) 0x10,
    enableField "NSP" 27 .prefetchAbort (some .nonSecure) 0x0C,
    enableField "NSS" 26 .svc (some .nonSecure) 0x08,
    enableField "NSU" 25 .undef (some .nonSecure) 0x04 ]

/-- The Monitor-mode group, in layout L_EL3_A32 only (R25). -/
def monitorFields : List Field :=
  [ enableField "MF" 15 .fiq (some .monitor) 0x1C,
    enableField "MI" 14 .irq (some .monitor) 0x18,
    reservedField 13 13,
    enableField "MD" 12 .dataAbort (some .monitor) 0x10,
    enableField "MP" 11 .prefetchAbort (some .monitor) 0x0C,
    enableField "MS" 10 .smc (some .monitor) 0x08 ]

/-- The Secure group, the same in both layouts that have it (R30). -/
def secureFields : List Field :=
  [ enableField "SF" 7 .fiq (some .secure) 0x1C,
    enableField "SI" 6 .irq (some .secure) 0x18,
    reservedField 5 5,
    enableField "SD" 4 .dataAbort (some .secure) 0x10,
    enableField "SP" 3 .prefetchAbort (some .secure) 0x0C,
    enableField "SS" 2 .svc (some .secure) 0x08,
    enableField "SU" 1 .undef (some .secure) 0x04,
    reservedField 0 0 ]

/-- The fields of each layout from bit 31 down (R25, R26, R27). -/
def fields : Layout → List Field
  | .el3A32 => nonSecureFields ++ [reservedField 24 16] ++ monitorFields ++ [reservedField 9 8] ++ secureFields
  | .el3A64 => nonSecureFields ++ [reservedField 24 8] ++ secureFields
  | .noEL3 =>
    [ reservedField 31 8,
      enableField "F" 7 .fiq none 0x1C,
      enableField "I" 6 .irq none 0x18,
      reservedField 5 5,
      enableField "D" 4 .dataAbort none 0x10,
      enableField "P" 3 .prefetchAbort none 0x0C,
      enableField "S" 2 .svc none 0x08,
      enableField "U" 1 .undef none 0x04,
      reservedField 0 0 ]

/-- ENABLE_MASK (R31): a 1 at every enable bit. -/
def enableMask : Layout → Word
  | .el3A32 => 0xDE00DCDE#32
  | .el3A64 => 0xDE0000DE#32
  | .noEL3 => 0x000000DE#32

/-- RES0_MASK (R31): a 1 at every reserved bit. -/
def res0Mask (l : Layout) : Word := ~~~ enableMask l

/-- The names of the enables that a register value sets, from bit 31 down. -/
def enabledFields (l : Layout) (v : Word) : List String :=
  ((fields l).filter fun f => f.enable.isSome && v.getLsbD f.lo).map (·.name)

/-- What a write of `v` leaves in `stored` (R37); the same filter makes the value after a reset from its draw (R47). -/
def storedOfWrite (c : Config) (v : Word) : Word :=
  match c.res0Mode with
  | .razWi => v &&& enableMask (layoutOf c)
  | .rwNoEffect => v

/-- What a read returns (R36). -/
def readOfStored (c : Config) (stored : Word) : Word :=
  match c.res0Mode with
  | .razWi => stored &&& enableMask (layoutOf c)
  | .rwNoEffect => stored

end Sys2Proof.Machine
end

