-- ==== Sys2Proof/Machine/State.lean ====
section
/-! DEFINITION. The state of the machine as plain data, the reasons a step can stop, and the state right after reset. -/

namespace Sys2Proof.Machine

/-- The Exception levels, values of PSTATE.EL (R41, R140). -/
inductive EL where
  | el0
  | el1
  | el2
  | el3
  deriving DecidableEq, Repr

/-- What the surrounding processor answers on the condition of the instruction at hand (R110, D7). -/
inductive CondAnswer where
  | notSupplied   -- it evaluates no conditions: conditional forms are refused (R90 (d))
  | passes
  | fails
  deriving DecidableEq, Repr

/-- The inputs that the surrounding processor supplies at each access (R6, R41 to R45), and what it says of the
instruction it hands over: the instruction set, whether an IT block encloses it, its condition (R86, R90, R110). -/
structure Inputs where
  el               : EL         -- PSTATE.EL
  el2Enabled       : Bool       -- EL2Enabled()
  el2AArch32       : Bool       -- ELUsingAArch32(EL2)
  mdcrEl3Tda       : BitVec 1   -- MDCR_EL3.TDA
  mdcrEl2Tde       : BitVec 1   -- MDCR_EL2.TDE
  mdcrEl2Tda       : BitVec 1   -- MDCR_EL2.TDA
  hdcrTde          : BitVec 1   -- HDCR.TDE
  hdcrTda          : BitVec 1   -- HDCR.TDA
  sddUndefPriority : Bool       -- EL3SDDUndefPriority()
  sddUndef         : Bool       -- EL3SDDUndef()
  iset             : InstrSet
  inITBlock        : Bool
  condAnswer       : CondAnswer
  deriving DecidableEq, Repr

/-- A general register that an access may name: 0 to 14 (R40, R87). -/
abbrev RegIx := Fin 15

/-- The Exception levels that `AArch64.AArch32SystemAccessTrap` is called for (R122). -/
inductive TrapTarget where
  | el2
  | el3
  deriving DecidableEq, Repr

/-- The outcomes of the access checks (R100), the trap outcomes with the number they carry. -/
inductive AccessOutcome where
  | access
  | undefined
  | sysTrap64 (target : TrapTarget) (code : Byte)
  | hypTrap (code : Byte)
  deriving DecidableEq, Repr

/-- Why an instruction hands control to the surrounding processor (R121 to R123, and R110 for a failed condition). -/
inductive Reason where
  | undefined
  | sysTrap64 (target : TrapTarget) (code : Byte)
  | hypTrap (code : Byte)
  | conditionFailed
  deriving DecidableEq, Repr

/-- What is handed over: the reason, and what identifies the instruction (R124): the location, the direction and `t`. -/
structure Handover where
  reason : Reason
  dir    : Direction
  rt     : RegIx
  loc    : SysRegLoc
  deriving DecidableEq, Repr

/-- Who has control: the program, or the surrounding processor after an outcome other than `Access` (R15, R124). -/
inductive Control where
  | program
  | handedOver (h : Handover)
  deriving DecidableEq, Repr

/-- The moves of the agents other than the executing program (R13): reset (R151), an access through DBGVCR32_EL2 (R22,
R76), and the surrounding processor as the interface of R14 and D1. It changes what it owns, names the synchronisation
points (R156) and gives control back (R15). -/
inductive Act where
  | reset (draw : Word)                  -- a reset, with its own draw `reset_value`
  | aliasRead                            -- AArch64 code reads DBGVCR32_EL2[31:0]
  | aliasWrite (v : Word)                -- AArch64 code writes DBGVCR32_EL2[31:0]
  | sync                                 -- a synchronisation point
  | setInputs (inputs : Inputs)          -- new values of the inputs
  | setReg (r : RegIx) (v : Word)        -- another instruction writes a general register
  | setPc (pc : Word)                    -- control goes elsewhere in the program
  | storeByte (addr : Word) (b : Byte)   -- memory that instructions are fetched from is written
  | resume (pc : Word)                   -- control is handed back to the program, at pc
  deriving DecidableEq, Repr

/-- One step's worth of the schedule. -/
inductive Move where
  | instruction
  | agent (a : Act)
  deriving DecidableEq, Repr

/-- The memory that instructions are fetched from: a list of (address, byte) pairs in canonical form, addresses strictly
rising. An unlisted address holds no value (assumption 4). -/
abbrev Memory := List Host.Cell

/-- The machine. `stored` and `history` are the state the spec owns (R14). The configuration, the inputs, the general
registers, the pc and the code belong to the surrounding processor and are read here. The rest is the model's own. -/
@[ext]
structure State where
  cfg       : Config           -- fixed for a run (R6)
  stored    : Word             -- DBGVCR (R20), which is also DBGVCR32_EL2[31:0] (R22)
  history   : List Word        -- the values `stored` has held since the last synchronisation point (R156), no repeats
  inputs    : Inputs           -- sampled at each access (R113)
  regs      : Vector Word 15   -- R[t] for t = 0 to 14 (R40)
  pc        : Word             -- R109
  mem       : Memory           -- the code that the surrounding processor fetches (R64)
  control   : Control          -- the outcome handed over, if any (R124)
  aliasData : Word             -- what the last read of DBGVCR32_EL2 returned
  schedule  : List Move        -- what the next steps are; when empty, the program runs
  deriving DecidableEq, Repr

/-- Why a step ends in a fault. -/
inductive Fault where
  /-- Raised by the step when a byte of the instruction at the pc has never been written. Safe: the machine stops where
  hardware would go on with some instruction. -/
  | codeUnwritten
  deriving DecidableEq, Repr

/-- Why a step is refused. -/
inductive Refusal where
  /-- Raised by an arm of `exec` for an instruction that has no meaning yet. No arm raises it. Safe. -/
  | notModelled (mnemonic : String)
  /-- RefusedRt15 (R90 (a)): raised by an access with `t` = 15. Safe: the spec gives the form no meaning. -/
  | refusedRt15
  /-- RefusedRt13T32 (R90 (b)): raised by a T32 access with `t` = 13. Safe: the spec gives the form no meaning. -/
  | refusedRt13T32
  /-- RefusedCond (R90 (d)): raised by a conditional form when the surrounding processor evaluates no conditions. Safe. -/
  | refusedCond
  /-- "Not mine" (R88): raised by the step for a word that is no access to DBGVCR, and by an A32 term with cond =
  0b1111. Safe: the word is outside the spec. -/
  | notMine
  /-- Raised by the step when the program is to execute while the surrounding processor has control (R15). Safe: the
  spec gives the surrounding processor's own steps no meaning. -/
  | surroundingHasControl
  /-- Raised by an access through DBGVCR32_EL2 when FEAT_AA32EL1 is not implemented (D20: whether that register exists
  then is not in the source). Safe. -/
  | noAliasRegister
  deriving DecidableEq, Repr

/-- The inputs that `State.reset` has: EL3, no trap control set, A32 outside an IT block, conditions pass. PRESUMED for
the Exception level and DESIGN CHOICE for the rest (assumption 3): the spec fixes none (R152). -/
def Inputs.chosen : Inputs where
  el := .el3
  el2Enabled := false
  el2AArch32 := false
  mdcrEl3Tda := 0#1
  mdcrEl2Tde := 0#1
  mdcrEl2Tda := 0#1
  hdcrTde := 0#1
  hdcrTda := 0#1
  sddUndefPriority := false
  sddUndef := false
  iset := .a32
  inITBlock := false
  condAnswer := .passes

/-- The machine of configuration `c` right after a reset that draws `draw` (R47, R151). The general registers and the pc
are 0 (DESIGN CHOICE, assumption 3). No code is loaded, nothing is handed over and nothing is scheduled. -/
def State.resetOf (c : Config) (draw : Word) : State where
  cfg := c
  stored := storedOfWrite c draw
  history := [storedOfWrite c draw]
  inputs := Inputs.chosen
  regs := Vector.replicate 15 0#32
  pc := 0#32
  mem := []
  control := .program
  aliasData := 0#32
  schedule := []

/-- The machine right after reset: the chosen configuration, and the free draw of R47. -/
def State.reset : State := State.resetOf Config.chosen Config.resetValue

end Sys2Proof.Machine
end

