-- ==== Sys2Proof/Machine/AccessCheck.lean ====
section
/-! DEFINITION. The chain of access checks (R101), which both instructions run before they transfer anything. -/

namespace Sys2Proof.Machine

/-- The number both trap calls pass (R122, R123). -/
def trapCode : Byte := 0x05#8

/-- E3T of R101: EL3, using AArch64, traps the access. -/
def e3t (c : Config) (i : Inputs) : Bool :=
  c.haveEL3 && c.featAA64EL3 && !c.el3AArch32 && i.mdcrEl3Tda == 1#1

/-- E2T64 of R101: EL2, using AArch64, traps the access. `MDCR_EL2.<TDE,TDA>` is TDE followed by TDA (R10). -/
def e2t64 (c : Config) (i : Inputs) : Bool :=
  i.el2Enabled && c.featAA64EL2 && !i.el2AArch32 && (i.mdcrEl2Tde ++ i.mdcrEl2Tda) != 0b00#2

/-- E2T32 of R101: EL2, using AArch32, traps the access. -/
def e2t32 (c : Config) (i : Inputs) : Bool :=
  i.el2Enabled && c.featAA32EL2 && i.el2AArch32 && (i.hdcrTde ++ i.hdcrTda) != 0b00#2

/-- The part of the chain that EL1 and EL2 share (R101, steps 6a to 7 and 9a to 10): the trap to EL3, or the access. -/
def checkEL3Trap (c : Config) (i : Inputs) : AccessOutcome :=
  if e3t c i then
    if i.sddUndef then .undefined else .sysTrap64 .el3 trapCode
  else .access

/-- AccessCheck (R101): the first test that holds decides. -/
def accessCheck (c : Config) (i : Inputs) : AccessOutcome :=
  if !c.featAA32EL1 then .undefined                              -- step 1
  else
    match i.el with
    | .el0 => .undefined                                         -- step 2
    | .el1 =>
      if e3t c i && i.sddUndefPriority then .undefined           -- step 3
      else if e2t64 c i then .sysTrap64 .el2 trapCode            -- step 4
      else if e2t32 c i then .hypTrap trapCode                   -- step 5
      else checkEL3Trap c i                                      -- steps 6a, 6b, 7
    | .el2 =>
      if e3t c i && i.sddUndefPriority then .undefined           -- step 8
      else checkEL3Trap c i                                      -- steps 9a, 9b, 10
    | .el3 => .access                                            -- step 11

end Sys2Proof.Machine
end

