-- ==== Sys2Proof/Machine/Ops.lean ====
section
/-! DEFINITION. The named operations over memory, the general registers and DBGVCR, the handing over of an exceptional
outcome, and the one shared access that every instruction is. -/

namespace Sys2Proof.Machine

/-! ### Memory -/

/-- The byte at an address, `none` where nothing has been written. -/
def Memory.read : Memory → Nat → Option Byte
  | [], _ => none
  | (k, b) :: rest, a => if k = a then some b else Memory.read rest a

/-- A byte written at an address, the list kept in canonical form. -/
def Memory.write : Memory → Nat → Byte → Memory
  | [], a, b => [(a, b)]
  | (k, c) :: rest, a, b =>
    if a < k then (a, b) :: (k, c) :: rest
    else if a = k then (a, b) :: rest
    else (k, c) :: Memory.write rest a b

/-- The canonical form: addresses strictly rising, each within the 32-bit address space. -/
def Memory.wf (m : Memory) : Bool :=
  decide (m.Pairwise fun p q => p.1 < q.1) && m.all fun p => decide (p.1 < 2 ^ 32)

/-- Bytes written at rising addresses from `a`, which wrap at the top of the address space. -/
def Memory.writeBytes (m : Memory) (a : Word) : List Byte → Memory
  | [] => m
  | b :: bs => Memory.writeBytes (m.write a.toNat b) (a + 1#32) bs

/-- `n` bytes read at rising addresses from `a`, or `none` if one of them has not been written. -/
def Memory.readBytes (m : Memory) (a : Word) : Nat → Option (List Byte)
  | 0 => some []
  | n + 1 =>
    match m.read a.toNat, Memory.readBytes m (a + 1#32) n with
    | some b, some bs => some (b :: bs)
    | _, _ => none

/-- The byte of memory at an address. -/
def State.readByte (a : Word) (s : State) : Option Byte := s.mem.read a.toNat

/-- A byte of memory written. -/
def State.storeByte (a : Word) (b : Byte) (s : State) : State := { s with mem := s.mem.write a.toNat b }

/-! ### Registers -/

/-- `x[t]`. -/
def State.reg (r : RegIx) (s : State) : Word := s.regs[r]

/-- `x[t] <- v`. -/
def State.setReg (r : RegIx) (v : Word) (s : State) : State := { s with regs := s.regs.set r v }

/-- `pc <- v`. -/
def State.setPc (v : Word) (s : State) : State := { s with pc := v }

/-- R109: the fall-through to the next instruction, both encodings being four bytes long. -/
def State.fallThrough (s : State) : State := s.setPc (s.pc + 4#32)

/-! ### DBGVCR -/

/-- The value a read of DBGVCR returns (R36); a read changes nothing. -/
def State.dbgvcr (s : State) : Word := readOfStored s.cfg s.stored

/-- A value added to a list that stands for a set. -/
def addValue (v : Word) (h : List Word) : List Word := if v ∈ h then h else v :: h

/-- `stored` becomes `v`, and the history of R156 takes it in. -/
def State.setStored (v : Word) (s : State) : State := { s with stored := v, history := addValue v s.history }

/-- DBGVCR <- v (R37): all 32 bits at once, filtered by the reserved-bit behaviour. -/
def State.writeDbgvcr (v : Word) (s : State) : State := s.setStored (storedOfWrite s.cfg v)

/-- A synchronisation point (R156): the history becomes the one value `stored`. -/
def State.sync (s : State) : State := { s with history := [s.stored] }

/-! ### What the agents set -/

/-- The inputs that the surrounding processor supplies from now on (R6). -/
def State.setInputs (i : Inputs) (s : State) : State := { s with inputs := i }

/-- What a read through DBGVCR32_EL2 hands to the AArch64 code that made it. -/
def State.setAliasData (v : Word) (s : State) : State := { s with aliasData := v }

/-- What the steps after this one are. -/
def State.setSchedule (ms : List Move) (s : State) : State := { s with schedule := ms }

/-! ### Exceptional outcomes -/

/-- Taking an exceptional outcome (R124): control goes to the surrounding processor with the reason and what identifies
the instruction. Nothing else changes: the instruction has had no effect (R106), and what entry saves and where it goes
is the surrounding processor's. -/
def State.handOver (reason : Reason) (dir : Direction) (rt : RegIx) (s : State) : State :=
  { s with control := .handedOver ⟨reason, dir, rt, dbgvcrLoc⟩ }

/-- The return from one (R15, R125): the surrounding processor hands control back to the program, at `pc`. -/
def State.resume (pc : Word) (s : State) : State := { s with control := .program, pc := pc }

/-! ### The access -/

/-- The transfer of a successful access (R103, R104, R109). -/
def transfer (dir : Direction) (rt : RegIx) (s : State) : State :=
  match dir with
  | .read => (s.setReg rt s.dbgvcr).fallThrough
  | .write => (s.writeDbgvcr (s.reg rt)).fallThrough

/-- What an access does once its condition has passed: the outcome of the checks, sampled once (R113), then the
transfer or the handing over, never both (R106). -/
def checkedAccess (dir : Direction) (rt : RegIx) (s : State) : State :=
  match accessCheck s.cfg s.inputs with
  | .access => transfer dir rt s
  | .undefined => s.handOver .undefined dir rt
  | .sysTrap64 target code => s.handOver (.sysTrap64 target code) dir rt
  | .hypTrap code => s.handOver (.hypTrap code) dir rt

/-- An execution of MRC or MCR of DBGVCR. A refused register is reported before a refused condition (R90). A failed
condition hands control over, for what it does is the surrounding processor's (R110). -/
def access (dir : Direction) (rt : Except Refusal RegIx) (cond : CondAnswer) (s : State) :
    Host.Outcome State Fault Refusal :=
  match rt, cond with
  | .error r, _ => .refused r
  | .ok _, .notSupplied => .refused .refusedCond
  | .ok t, .fails => .next (s.handOver .conditionFailed dir t)
  | .ok t, .passes => .next (checkedAccess dir t s)

end Sys2Proof.Machine
end

