-- ==== Sys2Proof/Machine/Agents.lean ====
section
/-! DEFINITION. The steps of the agents other than the program: reset, an access through DBGVCR32_EL2, and the
surrounding processor (R13). -/

namespace Sys2Proof.Machine

/-- The reset event (R151). Only DBGVCR is this spec's: an absent register has nothing to reset, and what else a reset
fixes is the surrounding processor's (R152). Whether a reset is a synchronisation point is open, so the history keeps
what it holds (assumption 11). -/
def State.resetEvent (draw : Word) (s : State) : State :=
  if s.cfg.featAA32EL1 then s.setStored (storedOfWrite s.cfg draw) else s

/-- A read through DBGVCR32_EL2 (R22, R76): the same storage, under the same reserved-bit behaviour. -/
def aliasRead (s : State) : Host.Outcome State Fault Refusal :=
  if s.cfg.featAA32EL1 then .next (s.setAliasData s.dbgvcr) else .refused .noAliasRegister

/-- A write through DBGVCR32_EL2 (R22, R76): the same storage, under the same reserved-bit behaviour. -/
def aliasWrite (v : Word) (s : State) : Host.Outcome State Fault Refusal :=
  if s.cfg.featAA32EL1 then .next (s.writeDbgvcr v) else .refused .noAliasRegister

/-- One move of an agent. -/
def act (a : Act) (s : State) : Host.Outcome State Fault Refusal :=
  match a with
  | .reset draw => .next (s.resetEvent draw)
  | .aliasRead => aliasRead s
  | .aliasWrite v => aliasWrite v s
  | .sync => .next s.sync
  | .setInputs inputs => .next (s.setInputs inputs)
  | .setReg r v => .next (s.setReg r v)
  | .setPc pc => .next (s.setPc pc)
  | .storeByte addr b => .next (s.storeByte addr b)
  | .resume pc => .next (s.resume pc)

end Sys2Proof.Machine
end

