-- ==== Sys2Proof/Machine/Flags.lean ====
section
/-! DEFINITION. Conditions. The machine has no flags: neither instruction reads or writes one (R46, R107). Whether a
conditional form's condition passes is the surrounding processor's answer (R110). -/

namespace Sys2Proof.Machine

/-- An A32 form with cond = 0b1110 always passes; any other takes the surrounding processor's answer (R110). -/
def condA32 (cond : BitVec 4) (i : Inputs) : CondAnswer :=
  if cond = 0b1110#4 then .passes else i.condAnswer

/-- A T32 form outside an IT block always passes; inside one it takes the surrounding processor's answer (R110). -/
def condT32 (i : Inputs) : CondAnswer :=
  if i.inITBlock then i.condAnswer else .passes

end Sys2Proof.Machine
end

