-- ==== Sys2Proof/Machine/Operands.lean ====
section
/-! DEFINITION. The one free operand, `<Rt>` (R87), and which values of it are admitted (R90). -/

namespace Sys2Proof.Machine

/-- `t` in 0 to 14, and 15 refused (R90 (a)). -/
def admitRt (rt : BitVec 4) : Except Refusal RegIx :=
  if h : rt.toNat < 15 then .ok ⟨rt.toNat, h⟩ else .error .refusedRt15

/-- The operand of an A32 form. A term with cond = 0b1111 is not matched by the decoding rule (R88, R90 (c)). -/
def admitA32 (cond rt : BitVec 4) : Except Refusal RegIx :=
  if cond = 0b1111#4 then .error .notMine else admitRt rt

/-- The operand of a T32 form: 13 is refused as well (R90 (b)). -/
def admitT32 (rt : BitVec 4) : Except Refusal RegIx :=
  if rt = 13#4 then .error .refusedRt13T32 else admitRt rt

end Sys2Proof.Machine
end

