-- ==== Sys2Proof/Machine/Access.lean ====
section
/-! DEFINITION. The meanings of the four rows of the opcode table: MRC and MCR of DBGVCR in A32 and in T32, each the
shared access with the row's own operand and condition rules. -/

namespace Sys2Proof.Machine

/-- MRC of DBGVCR, A32 (R103). -/
def execMrcA32 (cond rt : BitVec 4) (s : State) : Host.Outcome State Fault Refusal :=
  access .read (admitA32 cond rt) (condA32 cond s.inputs) s

/-- MCR of DBGVCR, A32 (R104). -/
def execMcrA32 (cond rt : BitVec 4) (s : State) : Host.Outcome State Fault Refusal :=
  access .write (admitA32 cond rt) (condA32 cond s.inputs) s

/-- MRC of DBGVCR, T32 (R103). -/
def execMrcT32 (rt : BitVec 4) (s : State) : Host.Outcome State Fault Refusal :=
  access .read (admitT32 rt) (condT32 s.inputs) s

/-- MCR of DBGVCR, T32 (R104). -/
def execMcrT32 (rt : BitVec 4) (s : State) : Host.Outcome State Fault Refusal :=
  access .write (admitT32 rt) (condT32 s.inputs) s

end Sys2Proof.Machine
end

