-- ==== Sys2Proof/Machine/Run.lean ====
section
/-! DEFINITION. Fetching and running one instruction of the program. -/

namespace Sys2Proof.Machine

/-- The four bytes at the pc (R84, R85: both encodings are four bytes long), if all of them have been written. -/
def State.fetch (s : State) : Option (List Byte) := s.mem.readBytes s.pc 4

/-- What the decoder reads at the pc, in the instruction set and byte order that hold there. -/
def State.decodeHere (s : State) : Except DecodeRefusal (Instr × List Byte) :=
  match s.fetch with
  | some bs => decode s.cfg.codeOrder s.inputs.iset bs
  | none => .error .tooShort

/-- The program's step: the instruction at the pc, if the program has control. -/
def runInstruction (s : State) : Host.Outcome State Fault Refusal :=
  match s.control with
  | .handedOver _ => .refused .surroundingHasControl
  | .program =>
    match s.decodeHere with
    | .ok (i, _) => exec i s
    | .error .notMine => .refused .notMine
    | .error .tooShort => .fault .codeUnwritten

end Sys2Proof.Machine
end

