-- ==== Sys2Proof/Machine/Step.lean ====
section
/-! DEFINITION. One step of the machine, and how an instruction is placed where the step fetches it. -/

namespace Sys2Proof.Machine

/-- One step: the first move of the schedule, or the program when nothing is scheduled. -/
def step (s : State) : Host.Outcome State Fault Refusal :=
  match s.schedule with
  | [] => runInstruction s
  | .instruction :: rest => runInstruction (s.setSchedule rest)
  | .agent a :: rest => act a (s.setSchedule rest)

/-- The instruction whose number in spec/opcode_table.json's numbering is `w`, loaded where the next step fetches: at
the pc, in the code byte order, with the instruction set that `tableSet` reads the word in, the program in control and
nothing scheduled before it. -/
def State.withFetchWord (s : State) (nbits w : Nat) : State :=
  { s with
    mem := s.mem.writeBytes s.pc (bytesOfWord s.cfg.codeOrder (tableSet (tableWord nbits w)) (tableWord nbits w))
    inputs := { s.inputs with iset := tableSet (tableWord nbits w) }
    control := .program
    schedule := [] }

end Sys2Proof.Machine
end

