-- ==== Sys2Proof/Machine/VectorCatch.lean ====
section
/-! DEFINITION. The enable lookup that the Vector Catch generation logic makes (R136) and the register value it sees
(R156). The event itself is out of the spec's scope (R138): no step generates one. -/

namespace Sys2Proof.Machine

/-- VCEnableBit (R136's table): which bit enables the catch, if one does. Layout L_NOEL3 ignores the context (D25). -/
def vcEnableBit : Layout → Ctx → Exc → Option Nat
  | .el3A32, .nonSecure, .undef => some 25
  | .el3A32, .nonSecure, .svc => some 26
  | .el3A32, .nonSecure, .smc => none
  | .el3A32, .nonSecure, .prefetchAbort => some 27
  | .el3A32, .nonSecure, .dataAbort => some 28
  | .el3A32, .nonSecure, .irq => some 30
  | .el3A32, .nonSecure, .fiq => some 31
  | .el3A32, .monitor, .undef => none
  | .el3A32, .monitor, .svc => none
  | .el3A32, .monitor, .smc => some 10
  | .el3A32, .monitor, .prefetchAbort => some 11
  | .el3A32, .monitor, .dataAbort => some 12
  | .el3A32, .monitor, .irq => some 14
  | .el3A32, .monitor, .fiq => some 15
  | .el3A32, .secure, .undef => some 1
  | .el3A32, .secure, .svc => some 2
  | .el3A32, .secure, .smc => none
  | .el3A32, .secure, .prefetchAbort => some 3
  | .el3A32, .secure, .dataAbort => some 4
  | .el3A32, .secure, .irq => some 6
  | .el3A32, .secure, .fiq => some 7
  | .el3A64, .monitor, _ => none
  | .el3A64, .nonSecure, .undef => some 25
  | .el3A64, .nonSecure, .svc => some 26
  | .el3A64, .nonSecure, .smc => none
  | .el3A64, .nonSecure, .prefetchAbort => some 27
  | .el3A64, .nonSecure, .dataAbort => some 28
  | .el3A64, .nonSecure, .irq => some 30
  | .el3A64, .nonSecure, .fiq => some 31
  | .el3A64, .secure, .undef => some 1
  | .el3A64, .secure, .svc => some 2
  | .el3A64, .secure, .smc => none
  | .el3A64, .secure, .prefetchAbort => some 3
  | .el3A64, .secure, .dataAbort => some 4
  | .el3A64, .secure, .irq => some 6
  | .el3A64, .secure, .fiq => some 7
  | .noEL3, _, .undef => some 1
  | .noEL3, _, .svc => some 2
  | .noEL3, _, .smc => none
  | .noEL3, _, .prefetchAbort => some 3
  | .noEL3, _, .dataAbort => some 4
  | .noEL3, _, .irq => some 6
  | .noEL3, _, .fiq => some 7

/-- VCEnabled (R136): 1 enables (the spec's reading, D13), and a bit that is not there enables nothing. -/
def vcEnabled (l : Layout) (ctx : Ctx) (exc : Exc) (v : Word) : Bool :=
  match vcEnableBit l ctx exc with
  | some b => v.getLsbD b
  | none => false

/-- The bits in which some value of the history differs from `stored`. -/
def openBits (stored : Word) : List Word → Word
  | [] => 0#32
  | h :: hs => (h ^^^ stored) ||| openBits stored hs

/-- `vc_view` (R156): at each use the caller supplies a fresh draw, whose bit says, where the history leaves a choice,
whether the generator sees the other value. -/
def State.vcView (draw : Word) (s : State) : Word := s.stored ^^^ (draw &&& openBits s.stored s.history)

/-- R156's own words for what `vc_view` may be: each bit is that bit of `stored` or of some value of the history. -/
def State.VcViewAllowed (s : State) (v : Word) : Prop :=
  ∀ b < 32, v.getLsbD b = s.stored.getLsbD b ∨ ∃ h ∈ s.history, v.getLsbD b = h.getLsbD b

/-- What the generator finds when it looks an enable up with a draw. An absent register enables nothing (R21; DEDUCED,
assumption 12). -/
def State.catchEnabled (draw : Word) (ctx : Ctx) (exc : Exc) (s : State) : Bool :=
  s.cfg.featAA32EL1 && vcEnabled (layoutOf s.cfg) ctx exc (s.vcView draw)

end Sys2Proof.Machine
end

