-- ==== Sys2Proof/Safety.lean ====
section
/-! DEFINITION. What a good state is, and the named premises that claims about this machine use. -/

namespace Sys2Proof.Machine

/-- A handover that the access checks can make in configuration `c`: it names DBGVCR, carries the number 0x05 where the
outcome has one, and goes only to an Exception level that the guards of its trap allow (R122, R123). -/
def Handover.Legal (c : Config) (h : Handover) : Prop :=
  h.loc = dbgvcrLoc ∧
  match h.reason with
  | .undefined => True
  | .conditionFailed => True
  | .sysTrap64 .el2 code => code = 0x05#8 ∧ c.featAA64EL2 = true
  | .sysTrap64 .el3 code => code = 0x05#8 ∧ c.haveEL3 = true ∧ c.featAA64EL3 = true ∧ c.el3AArch32 = false
  | .hypTrap code => code = 0x05#8 ∧ c.featAA32EL2 = true

/-- The reserved bits of a value are 0 where they are hardwired (R35). -/
def ReservedClear (c : Config) (v : Word) : Prop :=
  c.res0Mode = .razWi → v &&& res0Mask (layoutOf c) = 0#32

/-- The invariant of the machine. -/
structure State.Inv (s : State) : Prop where
  reserved_stored  : ReservedClear s.cfg s.stored
  reserved_history : ∀ v ∈ s.history, ReservedClear s.cfg v
  stored_history   : s.stored ∈ s.history
  history_nodup    : s.history.Nodup
  memory_wf        : s.mem.wf = true
  handover_legal   : ∀ h, s.control = .handedOver h → h.Legal s.cfg

/-- WF_EL (R7): the Exception level that executes is one that uses AArch32. -/
def WfEl (c : Config) (i : Inputs) : Prop :=
  (i.el = .el3 → c.haveEL3 = true ∧ c.el3AArch32 = true) ∧ (i.el = .el2 → i.el2AArch32 = true)

/-- EL3, using AArch64, has set its trap control (R42, R127). -/
def El3Traps (c : Config) (i : Inputs) : Prop :=
  c.haveEL3 = true ∧ c.featAA64EL3 = true ∧ c.el3AArch32 = false ∧ i.mdcrEl3Tda = 1#1

/-- EL2, using AArch64, is enabled and has set one of its trap controls (R43, R127). -/
def El2Traps64 (c : Config) (i : Inputs) : Prop :=
  i.el2Enabled = true ∧ c.featAA64EL2 = true ∧ i.el2AArch32 = false ∧ (i.mdcrEl2Tde = 1#1 ∨ i.mdcrEl2Tda = 1#1)

/-- EL2, using AArch32, is enabled and has set one of its trap controls (R44, R127). -/
def El2Traps32 (c : Config) (i : Inputs) : Prop :=
  i.el2Enabled = true ∧ c.featAA32EL2 = true ∧ i.el2AArch32 = true ∧ (i.hdcrTde = 1#1 ∨ i.hdcrTda = 1#1)

/-- When an access is performed, as R112 and R140 say it: at EL3 always, at EL2 unless EL3 traps it, at EL1 unless EL2
or EL3 does, at EL0 never, and never when the register is absent (R21). -/
def AccessAllowed (c : Config) (i : Inputs) : Prop :=
  c.featAA32EL1 = true ∧
  match i.el with
  | .el0 => False
  | .el1 => ¬ El3Traps c i ∧ ¬ El2Traps64 c i ∧ ¬ El2Traps32 c i
  | .el2 => ¬ El3Traps c i
  | .el3 => True

/-- When an A32 access runs: the condition field has an encoding, and it is "always" or the condition passes (R110). -/
def RunsA32 (cond : BitVec 4) (i : Inputs) : Prop :=
  cond ≠ 0b1111#4 ∧ (cond = 0b1110#4 ∨ i.condAnswer = .passes)

/-- When a T32 access runs: outside an IT block, or when the condition passes (R110). -/
def RunsT32 (i : Inputs) : Prop := i.inITBlock = false ∨ i.condAnswer = .passes

/-- Which way an instruction moves the value. -/
def dirOf : Instr → Direction
  | .mrcA32 _ _ => .read
  | .mcrA32 _ _ => .write
  | .mrcT32 _ => .read
  | .mcrT32 _ => .write

/-- The instruction names the general register `t` and that register is admitted (R87, R90). -/
def Names (i : Instr) (t : RegIx) : Prop :=
  match i with
  | .mrcA32 _ rt => rt.toNat = t.val
  | .mcrA32 _ rt => rt.toNat = t.val
  | .mrcT32 rt => rt.toNat = t.val ∧ t.val ≠ 13
  | .mcrT32 rt => rt.toNat = t.val ∧ t.val ≠ 13

/-- The instruction is encodable and its condition passes (R110). -/
def Runs (i : Instr) (inputs : Inputs) : Prop :=
  match i with
  | .mrcA32 cond _ => RunsA32 cond inputs
  | .mcrA32 cond _ => RunsA32 cond inputs
  | .mrcT32 _ => RunsT32 inputs
  | .mcrT32 _ => RunsT32 inputs

/-- Everything but the general registers, the pc, `stored` with its history, and the control is as before: the
configuration, the inputs, every byte of memory, what the alias read last, and the schedule. -/
def SameSurroundings (s s' : State) : Prop :=
  s'.cfg = s.cfg ∧ s'.inputs = s.inputs ∧ (∀ a, s'.readByte a = s.readByte a) ∧ s'.aliasData = s.aliasData ∧
    s'.schedule = s.schedule

/-- What a successful MRC into `x[t]` leaves (R36, R103, R109): the read value in `x[t]`, the pc after the instruction,
and nothing else changed. -/
def ReadDone (t : RegIx) (s s' : State) : Prop :=
  (s.cfg.res0Mode = .rwNoEffect → s'.reg t = s.stored) ∧
  (s.cfg.res0Mode = .razWi → s'.reg t = s.stored &&& enableMask (layoutOf s.cfg)) ∧
  (∀ r, r ≠ t → s'.reg r = s.reg r) ∧
  s'.pc = s.pc + 4#32 ∧ s'.stored = s.stored ∧ s'.history = s.history ∧ s'.control = s.control ∧ SameSurroundings s s'

/-- What a successful MCR from `x[t]` leaves (R37, R104, R109, R156): the written value in `stored` and in the history,
the pc after the instruction, and nothing else changed. -/
def WriteDone (t : RegIx) (s s' : State) : Prop :=
  (s.cfg.res0Mode = .rwNoEffect → s'.stored = s.reg t) ∧
  (s.cfg.res0Mode = .razWi → s'.stored = s.reg t &&& enableMask (layoutOf s.cfg)) ∧
  (∀ v, v ∈ s'.history ↔ v = s'.stored ∨ v ∈ s.history) ∧
  (∀ r, s'.reg r = s.reg r) ∧ s'.pc = s.pc + 4#32 ∧ s'.control = s.control ∧ SameSurroundings s s'

/-- What an exceptional outcome leaves (R106, R124): the handover, and everything else as it was. -/
def HandedOver (reason : Reason) (dir : Direction) (t : RegIx) (s s' : State) : Prop :=
  s'.control = .handedOver ⟨reason, dir, t, ⟨0b1110#4, 0b000#3, 0b0000#4, 0b0111#4, 0b000#3⟩⟩ ∧
  (∀ r, s'.reg r = s.reg r) ∧ s'.pc = s.pc ∧ s'.stored = s.stored ∧ s'.history = s.history ∧ SameSurroundings s s'

/-- The step that the machine makes at `s` is one that may write DBGVCR: a reset, a write through DBGVCR32_EL2, or an
MCR of the program whose access is allowed. -/
def WritesNow (s : State) : Prop :=
  match s.schedule with
  | .agent (.reset _) :: _ => True
  | .agent (.aliasWrite _) :: _ => True
  | .agent _ :: _ => False
  | _ =>
    s.control = .program ∧
      ∃ i rest t, s.decodeHere = .ok (i, rest) ∧ dirOf i = .write ∧ Names i t ∧ Runs i s.inputs ∧
        AccessAllowed s.cfg s.inputs

/-- The step that the machine makes at `s` is the program's, and it runs `i`: the program has control, no agent's move is
scheduled before it, and `i` is what the decoder reads at the pc. -/
def ProgramRuns (s : State) (i : Instr) : Prop :=
  s.control = .program ∧ (s.schedule = [] ∨ ∃ ms, s.schedule = .instruction :: ms) ∧
    ∃ rest, s.decodeHere = .ok (i, rest)

/-- A run of any length in which no step may write DBGVCR. -/
inductive QuietRun : State → State → Prop where
  | refl (s : State) : QuietRun s s
  | step {s s' s'' : State} (quiet : ¬ WritesNow s) (next : step s = .next s') (rest : QuietRun s' s'') : QuietRun s s''

/-- R138's premise: no enable that could apply is 1, whatever the generator sees. -/
def State.NoVectorCatch (s : State) : Prop :=
  ∀ draw ctx exc, s.catchEnabled draw ctx exc = false

end Sys2Proof.Machine
end

