-- ==== Sys2Proof/Certificates/Slice0/Obligations.lean ====
section
/-! DEFINITION. The statements for the provers, each a sentence about the machine as spec/ gives it. -/

open Sys2Proof Sys2Proof.Machine

/-! ### Encoding -/

/-- A STEP RUNS THE DECODED INSTRUCTION. When the program has control and the four bytes at the pc decode to `i` in the
instruction set and byte order that hold, the step is `exec` of `i`: at the state itself when nothing is scheduled, and
at the state with the schedule's first move taken off when that move is the program's. -/
def Obligations.StepRunsTheDecodedInstruction : Prop :=
  ∀ (s : State) (b0 b1 b2 b3 : Byte) (i : Instr) (rest : List Byte),
    s.control = .program →
    s.readByte s.pc = some b0 → s.readByte (s.pc + 1#32) = some b1 →
    s.readByte (s.pc + 2#32) = some b2 → s.readByte (s.pc + 3#32) = some b3 →
    decode s.cfg.codeOrder s.inputs.iset [b0, b1, b2, b3] = .ok (i, rest) →
    (s.schedule = [] → step s = exec i s) ∧
    (∀ ms, s.schedule = .instruction :: ms → step s = exec i { s with schedule := ms })

/-- Words written out bit by bit from R84 and R85 decode to the instructions that 95_test_vectors.md section 2.1 says,
in both sets, and its "not mine" words decode to nothing. -/
def Obligations.WordsOfTheTestVectorsDecode : Prop :=
  decodeWord .a32 0b11101110000100000000111000010111#32 = .ok (.mrcA32 0b1110#4 0#4) ∧
  decodeWord .a32 0b11101110000000000010111000010111#32 = .ok (.mcrA32 0b1110#4 2#4) ∧
  decodeWord .a32 0b00011110000000000101111000010111#32 = .ok (.mcrA32 0b0001#4 5#4) ∧
  decodeWord .t32 0b11101110000100000000111000010111#32 = .ok (.mrcT32 0#4) ∧
  decodeWord .t32 0b11101110000000000011111000010111#32 = .ok (.mcrT32 3#4) ∧
  decodeWord .a32 0b11101110000100000000111000110111#32 = .error .notMine ∧
  decodeWord .a32 0b11101110000100010000111000010111#32 = .error .notMine

/-- R88: which words of either set are accesses to DBGVCR, with which operands, and that every other word is "not
mine". The decoder reads fields, R88 compares masked words. -/
def Obligations.DecodingFollowsTheMasksAndMatches : Prop :=
  ∀ (w : Word),
    (∀ i, decodeWord .a32 w = .ok i ↔
      w.extractLsb' 28 4 ≠ 0b1111#4 ∧
        (w &&& 0x0FFF0FFF#32 = 0x0E100E17#32 ∧ i = .mrcA32 (w.extractLsb' 28 4) (w.extractLsb' 12 4) ∨
          w &&& 0x0FFF0FFF#32 = 0x0E000E17#32 ∧ i = .mcrA32 (w.extractLsb' 28 4) (w.extractLsb' 12 4))) ∧
    (∀ i, decodeWord .t32 w = .ok i ↔
      w &&& 0xFFFF0FFF#32 = 0xEE100E17#32 ∧ i = .mrcT32 (w.extractLsb' 12 4) ∨
        w &&& 0xFFFF0FFF#32 = 0xEE000E17#32 ∧ i = .mcrT32 (w.extractLsb' 12 4)) ∧
    (∀ set, (∀ i, decodeWord set w ≠ .ok i) → decodeWord set w = .error .notMine)

/-- DECODE AND ENCODE AGREE, through memory: every instruction that has an encoding, with every operand, stored at the pc
in either byte order (the top of the address space included), is what the decoder reads there, and the step runs it. The
bit positions and the order of the T32 halfwords are PRESUMED (log entry 6), as is that the pc wraps (log entry 8). -/
def Obligations.StoredInstructionIsDecodedAndRun : Prop :=
  ∀ (s : State) (i : Instr), i.encodable = true → s.inputs.iset = i.iset → s.control = .program →
    s.schedule = [] →
    State.decodeHere { s with mem := s.mem.writeBytes s.pc (encode s.cfg.codeOrder i) } = .ok (i, []) ∧
    step { s with mem := s.mem.writeBytes s.pc (encode s.cfg.codeOrder i) } =
      exec i { s with mem := s.mem.writeBytes s.pc (encode s.cfg.codeOrder i) }

/-- Each word has one meaning: the word that decodes to an instruction is that instruction's encoding, and the
instruction is of that set and has an encoding. The bit positions are PRESUMED (log entry 6). -/
def Obligations.DecodedWordIsTheEncoding : Prop :=
  ∀ (set : InstrSet) (w : Word) (i : Instr), decodeWord set w = .ok i →
    encodeWord i = w ∧ i.iset = set ∧ i.encodable = true

/-- An instruction word placed by `withFetchWord` at any state is the instruction that the very next step runs. -/
def Obligations.PlacedWordRunsNext : Prop :=
  ∀ (s : State) (w : Nat) (i : Instr), decodeTableWord 32 w = some i →
    step (s.withFetchWord 32 w) = exec i (s.withFetchWord 32 w)

/-- A byte that has never been written cannot be fetched, and a word that is no access to DBGVCR is refused by name: no
step of the program gives such a word a meaning (the model's choice for the unwritten byte, log entry 4). -/
def Obligations.UnfetchableOrForeignCodeStops : Prop :=
  ∀ (s : State), s.control = .program → s.schedule = [] →
    ((s.readByte s.pc = none ∨ s.readByte (s.pc + 1#32) = none ∨ s.readByte (s.pc + 2#32) = none ∨
        s.readByte (s.pc + 3#32) = none) → step s = .fault .codeUnwritten) ∧
    (∀ b0 b1 b2 b3, s.readByte s.pc = some b0 → s.readByte (s.pc + 1#32) = some b1 →
      s.readByte (s.pc + 2#32) = some b2 → s.readByte (s.pc + 3#32) = some b3 →
      decodeWord s.inputs.iset (wordOfBytes s.cfg.codeOrder s.inputs.iset b0 b1 b2 b3) = .error .notMine →
      step s = .refused .notMine)

/-! ### The access checks -/

/-- R101's chain as conditions on the configuration and the inputs: when each outcome is the one that comes out. -/
def Obligations.CheckChainDecidesEachOutcome : Prop :=
  ∀ (c : Config) (i : Inputs),
    (accessCheck c i = .access ↔ AccessAllowed c i) ∧
    (accessCheck c i = .sysTrap64 .el2 0x05#8 ↔
      c.featAA32EL1 = true ∧ i.el = .el1 ∧ ¬ (El3Traps c i ∧ i.sddUndefPriority = true) ∧ El2Traps64 c i) ∧
    (accessCheck c i = .hypTrap 0x05#8 ↔
      c.featAA32EL1 = true ∧ i.el = .el1 ∧ ¬ (El3Traps c i ∧ i.sddUndefPriority = true) ∧ ¬ El2Traps64 c i ∧
        El2Traps32 c i) ∧
    (accessCheck c i = .sysTrap64 .el3 0x05#8 ↔
      c.featAA32EL1 = true ∧ El3Traps c i ∧ i.sddUndefPriority = false ∧ i.sddUndef = false ∧
        (i.el = .el2 ∨ i.el = .el1 ∧ ¬ El2Traps64 c i ∧ ¬ El2Traps32 c i)) ∧
    (accessCheck c i = .undefined ↔
      c.featAA32EL1 = false ∨ i.el = .el0 ∨
        El3Traps c i ∧
          ((i.el = .el1 ∨ i.el = .el2) ∧ i.sddUndefPriority = true ∨
            i.sddUndef = true ∧ (i.el = .el2 ∨ i.el = .el1 ∧ ¬ El2Traps64 c i ∧ ¬ El2Traps32 c i)))

/-- R100: every execution of the checks ends in one of the outcomes, and the traps carry the number 0x05. -/
def Obligations.EveryOutcomeIsOneOfTheFour : Prop :=
  ∀ (c : Config) (i : Inputs),
    accessCheck c i = .access ∨ accessCheck c i = .undefined ∨ accessCheck c i = .sysTrap64 .el2 0x05#8 ∨
      accessCheck c i = .sysTrap64 .el3 0x05#8 ∨ accessCheck c i = .hypTrap 0x05#8

/-- R127: no control of EL2 matters to an access that is not made at EL1, and nothing but the presence of the register
matters at EL3. -/
def Obligations.OwnAndLowerControlsNeverTrap : Prop :=
  ∀ (c : Config) (i j : Inputs), i.el = j.el → i.el ≠ .el1 →
    (i.mdcrEl3Tda = j.mdcrEl3Tda → i.sddUndefPriority = j.sddUndefPriority → i.sddUndef = j.sddUndef →
      accessCheck c i = accessCheck c j) ∧
    (i.el = .el3 → c.featAA32EL1 = true → accessCheck c i = .access ∧ accessCheck c j = .access)

/-- R126: what wins when several conditions hold at once, for an access from EL1 to a register that is present. -/
def Obligations.TrapPriorityAtEl1 : Prop :=
  ∀ (c : Config) (i : Inputs), c.featAA32EL1 = true → i.el = .el1 →
    (El3Traps c i → i.sddUndefPriority = true → accessCheck c i = .undefined) ∧
    (El3Traps c i → i.sddUndefPriority = false → El2Traps64 c i → accessCheck c i = .sysTrap64 .el2 0x05#8) ∧
    (El3Traps c i → i.sddUndefPriority = false → El2Traps32 c i → accessCheck c i = .hypTrap 0x05#8) ∧
    (El3Traps c i → i.sddUndefPriority = false → ¬ El2Traps64 c i → ¬ El2Traps32 c i →
      (i.sddUndef = true → accessCheck c i = .undefined) ∧
      (i.sddUndef = false → accessCheck c i = .sysTrap64 .el3 0x05#8))

/-- The two predicates about EL3 traps disabled for debug matter only when EL3 traps the access. -/
def Obligations.DebugPredicatesMatterOnlyUnderAnEl3Trap : Prop :=
  ∀ (c : Config) (i : Inputs) (p q : Bool), ¬ El3Traps c i →
    accessCheck c { i with sddUndefPriority := p, sddUndef := q } = accessCheck c i

/-! ### The instructions -/

/-- MRC in A32 and in T32 (`mrcA32`, `mrcT32`) COMPLETES whenever the register operand is admitted, the condition passes
and the access is allowed: `x[t]` gets the read value of R36, which is `stored` itself where the reserved bits are clear,
the pc advances, and nothing else changes. -/
def Obligations.MrcReadsTheRegister : Prop :=
  ∀ (s : State) (cond rt : BitVec 4) (t : RegIx), rt.toNat = t.val → AccessAllowed s.cfg s.inputs →
    (RunsA32 cond s.inputs →
      ∃ s', exec (.mrcA32 cond rt) s = .next s' ∧ ReadDone t s s' ∧
        (ReservedClear s.cfg s.stored → s'.reg t = s.stored)) ∧
    (rt ≠ 13#4 → RunsT32 s.inputs →
      ∃ s', exec (.mrcT32 rt) s = .next s' ∧ ReadDone t s s' ∧
        (ReservedClear s.cfg s.stored → s'.reg t = s.stored))

/-- MCR in A32 and in T32 (`mcrA32`, `mcrT32`) COMPLETES whenever the register operand is admitted, the condition passes
and the access is allowed, for every 32-bit value of `x[t]`: `stored` gets that value as R37 filters it, the pc
advances, and nothing else changes but the history that R156 keeps. -/
def Obligations.McrWritesTheRegister : Prop :=
  ∀ (s : State) (cond rt : BitVec 4) (t : RegIx), rt.toNat = t.val → AccessAllowed s.cfg s.inputs →
    (RunsA32 cond s.inputs → ∃ s', exec (.mcrA32 cond rt) s = .next s' ∧ WriteDone t s s') ∧
    (rt ≠ 13#4 → RunsT32 s.inputs → ∃ s', exec (.mcrT32 rt) s = .next s' ∧ WriteDone t s s')

/-- Where an access traps, for all four instructions (`mrcA32`, `mrcT32`, `mcrA32`, `mcrT32`): on an outcome other than
`Access` control is handed over with the outcome, the direction, `t` and the location of DBGVCR, and neither `stored`
nor a register nor anything else changes. R106 says that `stored` and `x[t]` do not change. That the outcome is a next
state with control handed over, carrying these and leaving the pc, is the model's choice (log entry 13) on R124, which
hands the outcome value to the surrounding processor (decision D6). -/
def Obligations.ExceptionalOutcomeHandsOver : Prop :=
  ∀ (s : State) (cond rt : BitVec 4) (t : RegIx) (reason : Reason), rt.toNat = t.val →
    (accessCheck s.cfg s.inputs = .undefined ∧ reason = .undefined ∨
      (∃ target code, accessCheck s.cfg s.inputs = .sysTrap64 target code ∧ reason = .sysTrap64 target code) ∨
      ∃ code, accessCheck s.cfg s.inputs = .hypTrap code ∧ reason = .hypTrap code) →
    (RunsA32 cond s.inputs →
      (∃ s', exec (.mrcA32 cond rt) s = .next s' ∧ HandedOver reason .read t s s') ∧
      (∃ s', exec (.mcrA32 cond rt) s = .next s' ∧ HandedOver reason .write t s s')) ∧
    (rt ≠ 13#4 → RunsT32 s.inputs →
      (∃ s', exec (.mrcT32 rt) s = .next s' ∧ HandedOver reason .read t s s') ∧
      (∃ s', exec (.mcrT32 rt) s = .next s' ∧ HandedOver reason .write t s s'))

/-- The model's choice on a failed condition (log entry 9; R110 leaves the behaviour to the surrounding processor):
control is handed over with that reason, before any check is made, and nothing else changes. -/
def Obligations.FailedConditionHandsOver : Prop :=
  ∀ (s : State) (cond rt : BitVec 4) (t : RegIx), rt.toNat = t.val → s.inputs.condAnswer = .fails →
    (cond ≠ 0b1111#4 → cond ≠ 0b1110#4 →
      (∃ s', exec (.mrcA32 cond rt) s = .next s' ∧ HandedOver .conditionFailed .read t s s') ∧
      (∃ s', exec (.mcrA32 cond rt) s = .next s' ∧ HandedOver .conditionFailed .write t s s')) ∧
    (rt ≠ 13#4 → s.inputs.inITBlock = true →
      (∃ s', exec (.mrcT32 rt) s = .next s' ∧ HandedOver .conditionFailed .read t s s') ∧
      (∃ s', exec (.mcrT32 rt) s = .next s' ∧ HandedOver .conditionFailed .write t s s'))

/-- What is refused and by which name, at every state, for both instructions and both sets; a register refusal is
reported even where the condition would be refused too; an A32 word with cond = 0b1111 is "not mine". R90 marks these
refusals as the spec's own choice. That an A32 term with cond = 0b1111, which no word decodes to, is refused as "not
mine" whatever its register is, is the model's reading (DEDUCED, log entry 20): R90 (c) speaks of the word. -/
def Obligations.RefusedFormsStopByName : Prop :=
  ∀ (s : State),
    (∀ cond, cond ≠ 0b1111#4 →
      exec (.mrcA32 cond 15#4) s = .refused .refusedRt15 ∧ exec (.mcrA32 cond 15#4) s = .refused .refusedRt15) ∧
    exec (.mrcT32 15#4) s = .refused .refusedRt15 ∧ exec (.mcrT32 15#4) s = .refused .refusedRt15 ∧
    exec (.mrcT32 13#4) s = .refused .refusedRt13T32 ∧ exec (.mcrT32 13#4) s = .refused .refusedRt13T32 ∧
    (∀ w : Word, w.extractLsb' 28 4 = 0b1111#4 → decodeWord .a32 w = .error .notMine) ∧
    (∀ rt, exec (.mrcA32 0b1111#4 rt) s = .refused .notMine ∧ exec (.mcrA32 0b1111#4 rt) s = .refused .notMine) ∧
    (s.inputs.condAnswer = .notSupplied →
      (∀ cond rt, cond ≠ 0b1111#4 → cond ≠ 0b1110#4 → rt ≠ 15#4 →
        exec (.mrcA32 cond rt) s = .refused .refusedCond ∧ exec (.mcrA32 cond rt) s = .refused .refusedCond) ∧
      (∀ rt, s.inputs.inITBlock = true → rt ≠ 13#4 → rt ≠ 15#4 →
        exec (.mrcT32 rt) s = .refused .refusedCond ∧ exec (.mcrT32 rt) s = .refused .refusedCond))

/-- R105: a read and a write with admitted operands whose conditions pass are turned away for exactly the same reasons
at the same state, and one is performed exactly when the other is. That an access turned away answers a next state with
control handed over, and what that carries, is the model's choice (DESIGN CHOICE, log entry 13). -/
def Obligations.ReadAndWriteAreCheckedAlike : Prop :=
  ∀ (s : State) (i j : Instr) (t u : RegIx), s.control = .program → Names i t → Names j u → Runs i s.inputs →
    Runs j s.inputs →
    ∃ s1 s2, exec i s = .next s1 ∧ exec j s = .next s2 ∧
      (s1.control = .program ↔ s2.control = .program) ∧
      (∀ reason, s1.control = .handedOver ⟨reason, dirOf i, t, dbgvcrLoc⟩ ↔
        s2.control = .handedOver ⟨reason, dirOf j, u, dbgvcrLoc⟩)

/-- R86: the A32 form that always runs and the T32 form outside an IT block have the same effect, for each instruction
and each register that both admit. -/
def Obligations.A32AndT32FormsAgree : Prop :=
  ∀ (s : State) (rt : BitVec 4), rt ≠ 13#4 → s.inputs.inITBlock = false →
    exec (.mrcA32 0b1110#4 rt) s = exec (.mrcT32 rt) s ∧ exec (.mcrA32 0b1110#4 rt) s = exec (.mcrT32 rt) s

/-- R21: with the register absent, every access that names an admitted register and whose condition passes is Undefined
whatever the Exception level and the trap controls are, and what `stored` and its history hold cannot be observed: no
execution of an instruction depends on it, no step (an agent's included) does in anything but these two fields, and no
enable lookup does, because it finds no catch enabled. The lookup's answer is the model's reading of R21 (DEDUCED, log
entry 12), and what the handing over carries is the model's choice (log entry 13). -/
def Obligations.AbsentRegisterIsUnobservable : Prop :=
  ∀ (s : State), s.cfg.featAA32EL1 = false →
    (∀ i t, Names i t → Runs i s.inputs → ∃ s', exec i s = .next s' ∧ HandedOver .undefined (dirOf i) t s s') ∧
    ∀ (v : Word) (h : List Word),
      (∀ i s', exec i s = .next s' →
        exec i { s with stored := v, history := h } = .next { s' with stored := v, history := h }) ∧
      (match step s with
        | .next s' => ∃ v' h', step { s with stored := v, history := h } = .next { s' with stored := v', history := h' }
        | .fault f => step { s with stored := v, history := h } = .fault f
        | .refused r => step { s with stored := v, history := h } = .refused r) ∧
      ∀ draw ctx exc, ({ s with stored := v, history := h } : State).catchEnabled draw ctx exc = false

/-- R112: who may access a register that is present, said of the execution itself: at EL0 always Undefined, at EL3 always
performed, at EL1 performed unless EL2 or EL3 has set a trap control with its companions, at EL2 unless EL3 has. The
security state is no input at all, and EL2's own controls do not stand in the EL2 line. That an Undefined outcome is a
next state with control handed over is the model's choice (log entry 13). -/
def Obligations.PrivilegeDecidesWhoMayAccess : Prop :=
  ∀ (s : State) (i : Instr) (t : RegIx), s.cfg.featAA32EL1 = true → s.control = .program → Names i t →
    Runs i s.inputs →
    ∃ s', exec i s = .next s' ∧
      (s.inputs.el = .el0 → HandedOver .undefined (dirOf i) t s s') ∧
      (s.inputs.el = .el3 → s'.control = .program) ∧
      (s.inputs.el = .el1 →
        (s'.control = .program ↔
          ¬ El3Traps s.cfg s.inputs ∧ ¬ El2Traps64 s.cfg s.inputs ∧ ¬ El2Traps32 s.cfg s.inputs)) ∧
      (s.inputs.el = .el2 → (s'.control = .program ↔ ¬ El3Traps s.cfg s.inputs)) ∧
      (s'.control = .program → (dirOf i = .read → ReadDone t s s') ∧ (dirOf i = .write → WriteDone t s s'))

/-! ### DBGVCR -/

/-- R31: the masks have R31's values. ENABLE_MASK has a 1 exactly at the enable fields of the layout's table (R25 to R27),
RES0_MASK, its complement, exactly at the reserved ones, every bit lies in exactly one field, and there are as many
enables and reserved bits as R31's table counts. -/
def Obligations.MasksMatchTheFieldTables : Prop :=
  enableMask .el3A32 = 0xDE00DCDE#32 ∧ enableMask .el3A64 = 0xDE0000DE#32 ∧ enableMask .noEL3 = 0x000000DE#32 ∧
  res0Mask .el3A32 = 0x21FF2321#32 ∧ res0Mask .el3A64 = 0x21FFFF21#32 ∧ res0Mask .noEL3 = 0xFFFFFF21#32 ∧
  ∀ (l : Layout),
    (∀ b, b < 32 → ((fields l).filter fun f => decide (f.lo ≤ b ∧ b ≤ f.hi)).length = 1) ∧
    (∀ b, b < 32 → ((enableMask l).getLsbD b = true ↔ ∃ f ∈ fields l, f.lo ≤ b ∧ b ≤ f.hi ∧ f.enable.isSome = true)) ∧
    (∀ b, b < 32 → ((res0Mask l).getLsbD b = true ↔ ∃ f ∈ fields l, f.lo ≤ b ∧ b ≤ f.hi ∧ f.enable = none)) ∧
    (((List.range 32).filter fun b => (enableMask l).getLsbD b).length,
        ((List.range 32).filter fun b => (res0Mask l).getLsbD b).length) =
      (match l with
        | .el3A32 => (17, 15)
        | .el3A64 => (12, 20)
        | .noEL3 => (6, 26))

/-- R32: an enable field of the layout in force is set by an MCR to its bit of the written value, and an MRC returns it
unchanged, whatever the reserved-bit behaviour. -/
def Obligations.EnableBitsAreCopiedBothWays : Prop :=
  ∀ (s : State) (i : Instr) (t : RegIx) (f : Field), f ∈ fields (layoutOf s.cfg) → f.enable ≠ none → Names i t →
    Runs i s.inputs → AccessAllowed s.cfg s.inputs →
    ∃ s', exec i s = .next s' ∧
      (dirOf i = .write → s'.stored.getLsbD f.lo = (s.reg t).getLsbD f.lo) ∧
      (dirOf i = .read → (s'.reg t).getLsbD f.lo = s.stored.getLsbD f.lo)

/-- R34: a reserved bit of the layout in force. Hardwired, it is 0 in `stored` after any write and 0 in any read.
Stored, it holds what is written and reads back. That one of the two modes holds for all reserved bits is D3, PRESUMED
here (log entry 16). -/
def Obligations.ReservedBitsFollowTheMode : Prop :=
  ∀ (s : State) (i : Instr) (t : RegIx) (b : Nat), b < 32 → (res0Mask (layoutOf s.cfg)).getLsbD b = true →
    Names i t → Runs i s.inputs → AccessAllowed s.cfg s.inputs →
    ∃ s', exec i s = .next s' ∧
      (s.cfg.res0Mode = .razWi →
        (dirOf i = .write → s'.stored.getLsbD b = false) ∧ (dirOf i = .read → (s'.reg t).getLsbD b = false)) ∧
      (s.cfg.res0Mode = .rwNoEffect →
        (dirOf i = .write → s'.stored.getLsbD b = (s.reg t).getLsbD b) ∧
        (dirOf i = .read → (s'.reg t).getLsbD b = s.stored.getLsbD b))

/-- R68: two reads with no write between them, whatever run of steps that may not write DBGVCR lies between, return the
same value, each into its own register. A value written twice leaves what writing it once leaves, but for the pc. The
first clause covers two reads of a register that nothing has written since reset. There it rests on the model's holding
the drawn reset value in `stored` (DESIGN CHOICE, log entry 1, unsafe in this one point): decision D4 says that a claim
relying on it should name "DBGVCR written since reset" as a premise. ReadReturnsTheLastWrite has that premise. The run
between the reads is one of the model's agents, with no external write (log entry 14). -/
def Obligations.AccessesAreIdempotent : Prop :=
  ∀ (s : State) (i j : Instr) (t u : RegIx), Names i t → Names j u → Runs i s.inputs → AccessAllowed s.cfg s.inputs →
    (dirOf i = .read → dirOf j = .read →
      ∃ s1, exec i s = .next s1 ∧
        ∀ s2, QuietRun s1 s2 → Runs j s2.inputs → AccessAllowed s2.cfg s2.inputs →
          ∃ s3, exec j s2 = .next s3 ∧ s3.reg u = s1.reg t ∧ s3.stored = s.stored) ∧
    (dirOf i = .write → dirOf j = .write → Runs j s.inputs → s.reg u = s.reg t →
      ∃ s1 s2, exec i s = .next s1 ∧ exec j s1 = .next s2 ∧ s2 = { s1 with pc := s1.pc + 4#32 })

/-- R72, over runs of any length: an MRC that follows an MCR, with any run between them in which no step may write
DBGVCR, returns what that MCR wrote, as R37 filters it. Of two MCRs in a row the later one wins. Program order is the
spec's own decision ("The source does not state this", D12) and the model's choice (DESIGN CHOICE, log entry 21). The run
is one of the model's agents, with no external write (log entry 14). -/
def Obligations.ReadReturnsTheLastWrite : Prop :=
  ∀ (s : State) (i j : Instr) (t u : RegIx), dirOf i = .write → Names i t → Names j u → Runs i s.inputs →
    AccessAllowed s.cfg s.inputs →
    ∃ s1, exec i s = .next s1 ∧
      (∀ s2, QuietRun s1 s2 → dirOf j = .read → Runs j s2.inputs → AccessAllowed s2.cfg s2.inputs →
        ∃ s3, exec j s2 = .next s3 ∧ s3.reg u = storedOfWrite s.cfg (s.reg t)) ∧
      (dirOf j = .write → Runs j s.inputs →
        ∃ s2, exec j s1 = .next s2 ∧ s2.stored = storedOfWrite s.cfg (s.reg u) ∧
          readOfStored s2.cfg s2.stored = storedOfWrite s.cfg (s.reg u))

/-- R22 and R76: DBGVCR32_EL2 is the same storage. A scheduled read through it returns what an MRC would, a scheduled
write through it is what an MRC then reads, and neither changes anything else (but the history, and where the read
value goes, which is the model's own register, log entry 10). Where the register is absent both are refused by name. -/
def Obligations.AliasIsTheSameStorage : Prop :=
  ∀ (s : State) (v : Word) (ms : List Move),
    (s.cfg.featAA32EL1 = true → s.schedule = .agent .aliasRead :: ms →
      step s = .next { s with aliasData := readOfStored s.cfg s.stored, schedule := ms }) ∧
    (s.cfg.featAA32EL1 = true → s.schedule = .agent (.aliasWrite v) :: ms →
      ∃ s', step s = .next s' ∧ s'.stored = storedOfWrite s.cfg v ∧
        (∀ w, w ∈ s'.history ↔ w = s'.stored ∨ w ∈ s.history) ∧
        s' = { s with stored := s'.stored, history := s'.history, schedule := ms } ∧
        (∀ i t, dirOf i = .read → Names i t → Runs i s.inputs → AccessAllowed s.cfg s.inputs →
          ∃ s'', exec i s' = .next s'' ∧ s''.reg t = storedOfWrite s.cfg v)) ∧
    (s.cfg.featAA32EL1 = false →
      s.schedule = .agent .aliasRead :: ms ∨ s.schedule = .agent (.aliasWrite v) :: ms →
      step s = .refused .noAliasRegister)

/-! ### Reset -/

/-- What a reset with the draw `d` leaves in every bit, in every layout and both modes: the bit of the draw, but for a
hardwired reserved bit, which is 0. Said of the machine right after reset. The source's reset values are lost: that they
are a lawless draw is R47's decision (D4), and the model's draw is its choice (DESIGN CHOICE, log entry 1). -/
def Obligations.ResetLeavesTheDraw : Prop :=
  ∀ (c : Config) (d : Word) (b : Nat), b < 32 →
    ((enableMask (layoutOf c)).getLsbD b = true → (State.resetOf c d).stored.getLsbD b = d.getLsbD b) ∧
    ((res0Mask (layoutOf c)).getLsbD b = true → c.res0Mode = .razWi →
      (State.resetOf c d).stored.getLsbD b = false) ∧
    ((res0Mask (layoutOf c)).getLsbD b = true → c.res0Mode = .rwNoEffect →
      (State.resetOf c d).stored.getLsbD b = d.getLsbD b)

/-- R151: the reset event with the draw `d`, at any state. A register that is present gets the draw, filtered as its mode
says; an absent one is not touched; nothing else this spec owns changes but the history (log entry 11). The lawless draw
is the spec's decision (D4; log entry 1). -/
def Obligations.ResetEventDrawsTheRegister : Prop :=
  ∀ (s : State) (d : Word) (ms : List Move), s.schedule = .agent (.reset d) :: ms →
    ∃ s', step s = .next s' ∧
      (s.cfg.featAA32EL1 = true → s.cfg.res0Mode = .razWi →
        s'.stored = d &&& enableMask (layoutOf s.cfg)) ∧
      (s.cfg.featAA32EL1 = true → s.cfg.res0Mode = .rwNoEffect → s'.stored = d) ∧
      (s.cfg.featAA32EL1 = false → s'.stored = s.stored ∧ s'.history = s.history) ∧
      (s.cfg.featAA32EL1 = true → ∀ v, v ∈ s'.history ↔ v = s'.stored ∨ v ∈ s.history) ∧
      s' = { s with stored := s'.stored, history := s'.history, schedule := ms }

/-! ### Vector Catch -/

/-- The lookup of R136 finds exactly the bit of the field, in the layout's table, that names the exception and the
context, or names the exception and no context. -/
def Obligations.LookupFindsTheNamedField : Prop :=
  ∀ (l : Layout) (ctx : Ctx) (exc : Exc) (b : Nat),
    vcEnableBit l ctx exc = some b ↔
      ∃ f ∈ fields l, ∃ e, f.enable = some e ∧ f.lo = b ∧ f.hi = b ∧ e.exc = exc ∧ (e.ctx = some ctx ∨ e.ctx = none)

/-- R28: the position law, and that a field's stated offset is its exception's. -/
def Obligations.EnablePositionsFollowTheOffsets : Prop :=
  ∀ (l : Layout) (f : Field) (e : Enable), f ∈ fields l → f.enable = some e →
    e.offset = vectorOffset e.exc ∧
    f.lo = (match e.ctx with
        | some ctx => groupBase ctx
        | none => 0) + e.offset / 4 ∧
    f.lo % 8 ∈ [1, 2, 3, 4, 6, 7]

/-- R136: a reserved bit never enables anything: two values that agree in the enables of the layout are looked up alike,
whatever their reserved bits hold. -/
def Obligations.ReservedBitsEnableNothing : Prop :=
  ∀ (l : Layout) (ctx : Ctx) (exc : Exc) (v w : Word), v &&& enableMask l = w &&& enableMask l →
    vcEnabled l ctx exc v = vcEnabled l ctx exc w

/-- R156: the views that the draws give are exactly the ones the rule allows, bit by bit from `stored` and the history.
The rule is the spec's decision (D12), and the draw as an argument is the model's choice (log entry 19). -/
def Obligations.DrawsGiveExactlyTheAllowedViews : Prop :=
  ∀ (s : State) (v : Word), s.VcViewAllowed v ↔ ∃ draw, s.vcView draw = v

/-- R156: at a synchronisation point the history becomes the one value `stored`, and the view is then `stored` for every
draw, until the next write: an MCR after it opens exactly the choice, bit by bit, between the old value and the new. The
rule is the spec's decision (D12), and the move `sync` that stands for `is_sync_point` is the model's choice (log entry
19). -/
def Obligations.SynchronisationClosesTheWindow : Prop :=
  ∀ (s : State) (ms : List Move), s.schedule = .agent .sync :: ms →
    ∃ s', step s = .next s' ∧ s' = { s with history := [s.stored], schedule := ms } ∧
      (∀ draw, s'.vcView draw = s'.stored) ∧
      (∀ i t, dirOf i = .write → Names i t → Runs i s'.inputs → AccessAllowed s'.cfg s'.inputs →
        ∃ s'', exec i s' = .next s'' ∧
          ∀ v, s''.VcViewAllowed v ↔
            ∀ b < 32, v.getLsbD b = s.stored.getLsbD b ∨ v.getLsbD b = (storedOfWrite s.cfg (s.reg t)).getLsbD b)

/-- After an MCR and a synchronisation point, a catch is enabled exactly when the written value has a 1 at the bit that
the lookup names, for every draw. So an MCR of a value with no enable set leaves no catch enabled (R153, and the premise
that R138 demands), whatever the reset left in the register. That a 1 enables is general knowledge of the spec (R136,
D13) and PRESUMED here (log entry 17). That the generator sees `stored` after the synchronisation point is R156. -/
def Obligations.CatchFollowsTheWrittenBit : Prop :=
  ∀ (s : State) (i : Instr) (t : RegIx) (ms : List Move), dirOf i = .write → Names i t → Runs i s.inputs →
    AccessAllowed s.cfg s.inputs → s.schedule = .agent .sync :: ms →
    ∃ s1 s2, exec i s = .next s1 ∧ step s1 = .next s2 ∧
      (∀ draw ctx exc, s2.catchEnabled draw ctx exc = true ↔
        ∃ b, vcEnableBit (layoutOf s.cfg) ctx exc = some b ∧ (s.reg t).getLsbD b = true) ∧
      (s.reg t &&& enableMask (layoutOf s.cfg) = 0#32 → s2.NoVectorCatch)

/-! ### The whole machine -/

/-- EVERY STEP KEEPS THE INVARIANT: the hardwired reserved bits stay 0 in `stored` and in the history (R35), `stored` is
in its history, which repeats nothing, the memory keeps its canonical form, and what is handed over is a handover that
the checks can make. -/
def Obligations.EveryStepKeepsTheInvariant : Prop :=
  ∀ (s s' : State), s.Inv → step s = .next s' → s'.Inv

/-- The invariant holds right after reset, in every configuration and for every draw. -/
def Obligations.ResetHasTheInvariant : Prop :=
  State.reset.Inv ∧ ∀ (c : Config) (d : Word), (State.resetOf c d).Inv

/-- Only a reset, a write through DBGVCR32_EL2 or an MCR that is allowed changes `stored`, and only those or a
synchronisation point change its history. That no other agent has a move is the model's choice (DESIGN CHOICE, log entry
14, on D15): on a chip with a debugger or a memory-mapped path the claim needs the premise "no external write to DBGVCR"
that R15 and D15 name. -/
def Obligations.OnlyWritersChangeTheRegister : Prop :=
  ∀ (s s' : State), step s = .next s' → ¬ WritesNow s →
    s'.stored = s.stored ∧ (s'.history = s.history ∨ s'.history = [s.stored] ∧ ∃ ms, s.schedule = .agent .sync :: ms)

/-- No step changes the configuration, so the layout is fixed for a run, and only the surrounding processor's move
`setInputs` changes an input. That the configuration and the layout are fixed is R24's decision (D2), PRESUMED here (log
entry 15, unsafe for a chip that switches EL3's execution state without a reset). -/
def Obligations.ConfigurationIsFixedAndOnlySetInputsWritesInputs : Prop :=
  ∀ (s s' : State), step s = .next s' →
    s'.cfg = s.cfg ∧ layoutOf s'.cfg = layoutOf s.cfg ∧
      (s'.inputs = s.inputs ∨ ∃ inputs ms, s.schedule = .agent (.setInputs inputs) :: ms ∧ s'.inputs = inputs)

/-- A general register changes only when the program runs an MRC into it whose condition passes and whose access is
allowed, or by the surrounding processor's own move. That no other agent has a move is log entry 14 (DESIGN CHOICE). -/
def Obligations.OnlyAnMrcOrTheSurroundingsWriteARegister : Prop :=
  ∀ (s s' : State) (r : RegIx), step s = .next s' → s'.reg r ≠ s.reg r →
    (∃ v ms, s.schedule = .agent (.setReg r v) :: ms ∧ s'.reg r = v) ∨
      ∃ i, ProgramRuns s i ∧ dirOf i = .read ∧ Names i r ∧ Runs i s.inputs ∧ AccessAllowed s.cfg s.inputs ∧
        s'.reg r = readOfStored s.cfg s.stored

/-- R61: no access touches memory. A byte of memory changes only by the surrounding processor's store to that address,
which leaves there the byte it stores. That no other agent has a move is log entry 14 (DESIGN CHOICE). -/
def Obligations.NoAccessTouchesMemory : Prop :=
  ∀ (s s' : State) (a : Word), step s = .next s' →
    ((∀ b ms, s.schedule ≠ .agent (.storeByte a b) :: ms) → s'.readByte a = s.readByte a) ∧
    (∀ b ms, s.schedule = .agent (.storeByte a b) :: ms → s'.readByte a = some b)

/-- Control leaves the program only when the program runs an access that fails its condition or is not allowed, with a
legal handover of its own register and direction and the pc at that instruction. After that the program makes no step,
and no move of any agent gives control back but the surrounding processor's `resume`, which does so at the pc it names.
That an outcome is handed over in this way, with the pc as before, and that the program then waits for `resume`, is the
model's choice (DESIGN CHOICE, log entry 13, on R124). A failed condition is handed over by log entry 9. -/
def Obligations.ControlLeavesOnlyByATrappedAccess : Prop :=
  (∀ (s s' : State) (h : Handover), step s = .next s' → s.control = .program → s'.control = .handedOver h →
    s'.pc = s.pc ∧ s'.stored = s.stored ∧ h.Legal s.cfg ∧
      ∃ i, ProgramRuns s i ∧ Names i h.rt ∧ h.dir = dirOf i ∧ ¬ (Runs i s.inputs ∧ AccessAllowed s.cfg s.inputs) ∧
        (h.reason = .conditionFailed ↔ ¬ Runs i s.inputs)) ∧
  (∀ (s : State) (h : Handover) (ms : List Move), s.control = .handedOver h →
    (s.schedule = [] ∨ s.schedule = .instruction :: ms → step s = .refused .surroundingHasControl) ∧
    (∀ s', step s = .next s' → (∀ pc ms, s.schedule ≠ .agent (.resume pc) :: ms) → s'.control = .handedOver h) ∧
    (∀ pc, s.schedule = .agent (.resume pc) :: ms →
      step s = .next { s with control := .program, pc := pc, schedule := ms }))

/-- R106: an instruction whose outcome is not `Access` changes neither `stored` nor `x[t]`: whenever one answers a next
state while the checks do not give `Access`, `stored`, its history and every general register are as before. -/
def Obligations.NoPartialEffect : Prop :=
  ∀ (s s' : State) (i : Instr), accessCheck s.cfg s.inputs ≠ .access → exec i s = .next s' →
    s'.stored = s.stored ∧ s'.history = s.history ∧ ∀ r, s'.reg r = s.reg r
end

