-- ==== Sys2Proof/Laws/Encoding.lean ====
section
/-! SUPPORT. The bytes of an instruction word and the word they hold are inverse, in both byte orders and both sets. -/

namespace Sys2Proof

/-- A word put together again from the four bytes it was split into, in any of the three arrangements. -/
theorem append_bytes (w : Word) :
    w.extractLsb' 24 8 ++ w.extractLsb' 16 8 ++ w.extractLsb' 8 8 ++ w.extractLsb' 0 8 = w := by
  apply BitVec.eq_of_getLsbD_eq
  intro b hb
  simp only [BitVec.getLsbD_append, BitVec.getLsbD_extractLsb']
  by_cases h0 : b < 8
  · simp [h0]
  · by_cases h1 : b < 16
    · have e : 8 + (b - 8) = b := by omega
      have g : b - 8 < 8 := by omega
      simp [h0, e, g]
    · by_cases h2 : b < 24
      · have e : 16 + (b - 8 - 8) = b := by omega
        have g : b - 8 - 8 < 8 := by omega
        have g' : ¬ b - 8 < 8 := by omega
        simp [h0, e, g, g']
      · have e : 24 + (b - 8 - 8 - 8) = b := by omega
        have g : ¬ b - 8 < 8 := by omega
        have g' : ¬ b - 8 - 8 < 8 := by omega
        have g'' : b - 8 - 8 - 8 < 8 := by omega
        simp [h0, e, g, g', g'']

/-- Decoding the bytes of a word is decoding the word. -/
theorem decode_bytesOfWord (order : ByteOrder) (set : InstrSet) (w : Word) :
    decode order set (bytesOfWord order set w) =
      match decodeWord set w with
      | .ok i => .ok (i, [])
      | .error e => .error e := by
  cases order <;> cases set <;> simp only [bytesOfWord, decode, wordOfBytes, append_bytes] <;>
    cases decodeWord _ w <;> rfl

/-- The bytes of a word are four. -/
theorem bytesOfWord_eq (order : ByteOrder) (set : InstrSet) (w : Word) :
    ∃ b0 b1 b2 b3, bytesOfWord order set w = [b0, b1, b2, b3] := by
  cases order <;> cases set <;> exact ⟨_, _, _, _, rfl⟩

end Sys2Proof
end

