-- ==== Sys2Proof/Laws/Memory.lean ====
section
/-! SUPPORT. The laws of memory: a read after a write, the canonical form, and the bytes of an instruction word. -/

namespace Sys2Proof.Machine

/-- A read at the written address gives the byte written. -/
@[simp] theorem read_write_same (m : Memory) (a : Nat) (b : Byte) : (m.write a b).read a = some b := by
  induction m with
  | nil => simp [Memory.write, Memory.read]
  | cons p rest ih =>
    obtain ⟨k, c⟩ := p
    by_cases h1 : a < k
    · simp [Memory.write, Memory.read, h1]
    · by_cases h2 : a = k
      · simp [Memory.write, Memory.read, h2]
      · have h3 : k ≠ a := fun h => h2 h.symm
        simp [Memory.write, Memory.read, h1, h2, h3, ih]

/-- A write leaves every other address alone. -/
theorem read_write_ne (m : Memory) (a x : Nat) (b : Byte) (hx : x ≠ a) : (m.write a b).read x = m.read x := by
  induction m with
  | nil => simp [Memory.write, Memory.read, Ne.symm hx]
  | cons p rest ih =>
    obtain ⟨k, c⟩ := p
    by_cases h1 : a < k
    · simp [Memory.write, Memory.read, h1, Ne.symm hx]
    · by_cases h2 : a = k
      · subst h2
        simp [Memory.write, Memory.read, Ne.symm hx]
      · simp [Memory.write, Memory.read, h1, h2, ih]

/-- The addresses of a memory after a write: the one written and those there before. -/
theorem mem_write {m : Memory} {a : Nat} {b : Byte} {p : Host.Cell} (h : p ∈ m.write a b) : p = (a, b) ∨ p ∈ m := by
  induction m with
  | nil => simpa [Memory.write] using h
  | cons q rest ih =>
    obtain ⟨k, c⟩ := q
    simp only [Memory.write] at h
    split at h
    · simpa using h
    · split at h
      · rcases List.mem_cons.1 h with h | h
        · exact .inl h
        · exact .inr (List.mem_cons_of_mem _ h)
      · rcases List.mem_cons.1 h with h | h
        · exact .inr (h ▸ List.mem_cons_self)
        · rcases ih h with h | h
          · exact .inl h
          · exact .inr (List.mem_cons_of_mem _ h)

/-- The canonical form, as two facts. -/
theorem wf_iff (m : Memory) : m.wf = true ↔ m.Pairwise (fun p q => p.1 < q.1) ∧ ∀ p ∈ m, p.1 < 2 ^ 32 := by
  simp [Memory.wf]

/-- A write keeps the addresses strictly rising. -/
theorem write_pairwise {m : Memory} {a : Nat} {b : Byte} (h : m.Pairwise fun p q => p.1 < q.1) :
    (m.write a b).Pairwise fun p q => p.1 < q.1 := by
  induction m with
  | nil => simp [Memory.write]
  | cons p rest ih =>
    obtain ⟨k, c⟩ := p
    obtain ⟨hk, hr⟩ := List.pairwise_cons.1 h
    simp only [Memory.write]
    split
    · rename_i hlt
      refine List.pairwise_cons.2 ⟨fun q hq => ?_, h⟩
      rcases List.mem_cons.1 hq with e | hq
      · subst e; exact hlt
      · exact lt_trans hlt (hk q hq)
    · split
      · rename_i he
        subst he
        exact List.pairwise_cons.2 ⟨hk, hr⟩
      · rename_i h1 h2
        refine List.pairwise_cons.2 ⟨fun q hq => ?_, ih hr⟩
        rcases mem_write hq with e | hq
        · subst e; show k < a; omega
        · exact hk q hq

/-- A write within the address space keeps the canonical form. -/
theorem write_wf {m : Memory} {a : Nat} {b : Byte} (h : m.wf = true) (ha : a < 2 ^ 32) : (m.write a b).wf = true := by
  obtain ⟨hp, hm⟩ := (wf_iff m).1 h
  refine (wf_iff _).2 ⟨write_pairwise hp, fun p hp' => ?_⟩
  rcases mem_write hp' with e | hp'
  · subst e; exact ha
  · exact hm p hp'

/-- Writing bytes keeps the canonical form. -/
theorem writeBytes_wf {m : Memory} (a : Word) (bs : List Byte) (h : m.wf = true) : (m.writeBytes a bs).wf = true := by
  induction bs generalizing m a with
  | nil => exact h
  | cons b bs ih => exact ih (a + 1#32) (write_wf h a.isLt)

/-- Four bytes written from any address, the top of the address space included, are read back. -/
theorem readBytes_writeBytes (m : Memory) (a : Word) (b0 b1 b2 b3 : Byte) :
    (m.writeBytes a [b0, b1, b2, b3]).readBytes a 4 = some [b0, b1, b2, b3] := by
  have n1 : a.toNat ≠ (a + 1#32).toNat := by bv_omega
  have n2 : a.toNat ≠ (a + 1#32 + 1#32).toNat := by bv_omega
  have n3 : a.toNat ≠ (a + 1#32 + 1#32 + 1#32).toNat := by bv_omega
  have n4 : (a + 1#32).toNat ≠ (a + 1#32 + 1#32).toNat := by bv_omega
  have n5 : (a + 1#32).toNat ≠ (a + 1#32 + 1#32 + 1#32).toNat := by bv_omega
  have n6 : (a + 1#32 + 1#32).toNat ≠ (a + 1#32 + 1#32 + 1#32).toNat := by bv_omega
  simp only [Memory.writeBytes, Memory.readBytes, read_write_same, read_write_ne _ _ _ _ n1,
    read_write_ne _ _ _ _ n2, read_write_ne _ _ _ _ n3, read_write_ne _ _ _ _ n4, read_write_ne _ _ _ _ n5,
    read_write_ne _ _ _ _ n6]

/-- A fetch gives exactly the four bytes at the pc, when all have been written. -/
theorem fetch_eq_some (s : State) (bs : List Byte) :
    s.fetch = some bs ↔
      ∃ b0 b1 b2 b3, bs = [b0, b1, b2, b3] ∧ s.readByte s.pc = some b0 ∧ s.readByte (s.pc + 1#32) = some b1 ∧
        s.readByte (s.pc + 2#32) = some b2 ∧ s.readByte (s.pc + 3#32) = some b3 := by
  have e2 : s.pc + 1#32 + 1#32 = s.pc + 2#32 := by bv_omega
  have e3 : s.pc + 2#32 + 1#32 = s.pc + 3#32 := by bv_omega
  simp only [State.fetch, State.readByte, Memory.readBytes, e2, e3]
  cases h0 : Memory.read s.mem s.pc.toNat <;> cases h1 : Memory.read s.mem (s.pc + 1#32).toNat <;>
    cases h2 : Memory.read s.mem (s.pc + 2#32).toNat <;> cases h3 : Memory.read s.mem (s.pc + 3#32).toNat <;>
    simp [eq_comm]

end Sys2Proof.Machine
end

