-- ==== Sys2Proof/Laws/State.lean ====
section
/-! SUPPORT. One lemma per field per update of the state, each true by rfl, and the two laws of the register file. -/

namespace Sys2Proof.Machine

variable (s : State)

@[simp] theorem setReg_cfg (r : RegIx) (v : Word) : (s.setReg r v).cfg = s.cfg := rfl
@[simp] theorem setReg_stored (r : RegIx) (v : Word) : (s.setReg r v).stored = s.stored := rfl
@[simp] theorem setReg_history (r : RegIx) (v : Word) : (s.setReg r v).history = s.history := rfl
@[simp] theorem setReg_inputs (r : RegIx) (v : Word) : (s.setReg r v).inputs = s.inputs := rfl
@[simp] theorem setReg_regs (r : RegIx) (v : Word) : (s.setReg r v).regs = s.regs.set r v := rfl
@[simp] theorem setReg_pc (r : RegIx) (v : Word) : (s.setReg r v).pc = s.pc := rfl
@[simp] theorem setReg_mem (r : RegIx) (v : Word) : (s.setReg r v).mem = s.mem := rfl
@[simp] theorem setReg_control (r : RegIx) (v : Word) : (s.setReg r v).control = s.control := rfl
@[simp] theorem setReg_aliasData (r : RegIx) (v : Word) : (s.setReg r v).aliasData = s.aliasData := rfl
@[simp] theorem setReg_schedule (r : RegIx) (v : Word) : (s.setReg r v).schedule = s.schedule := rfl

@[simp] theorem setPc_cfg (v : Word) : (s.setPc v).cfg = s.cfg := rfl
@[simp] theorem setPc_stored (v : Word) : (s.setPc v).stored = s.stored := rfl
@[simp] theorem setPc_history (v : Word) : (s.setPc v).history = s.history := rfl
@[simp] theorem setPc_inputs (v : Word) : (s.setPc v).inputs = s.inputs := rfl
@[simp] theorem setPc_regs (v : Word) : (s.setPc v).regs = s.regs := rfl
@[simp] theorem setPc_pc (v : Word) : (s.setPc v).pc = v := rfl
@[simp] theorem setPc_mem (v : Word) : (s.setPc v).mem = s.mem := rfl
@[simp] theorem setPc_control (v : Word) : (s.setPc v).control = s.control := rfl
@[simp] theorem setPc_aliasData (v : Word) : (s.setPc v).aliasData = s.aliasData := rfl
@[simp] theorem setPc_schedule (v : Word) : (s.setPc v).schedule = s.schedule := rfl

@[simp] theorem storeByte_cfg (a : Word) (b : Byte) : (s.storeByte a b).cfg = s.cfg := rfl
@[simp] theorem storeByte_stored (a : Word) (b : Byte) : (s.storeByte a b).stored = s.stored := rfl
@[simp] theorem storeByte_history (a : Word) (b : Byte) : (s.storeByte a b).history = s.history := rfl
@[simp] theorem storeByte_inputs (a : Word) (b : Byte) : (s.storeByte a b).inputs = s.inputs := rfl
@[simp] theorem storeByte_regs (a : Word) (b : Byte) : (s.storeByte a b).regs = s.regs := rfl
@[simp] theorem storeByte_pc (a : Word) (b : Byte) : (s.storeByte a b).pc = s.pc := rfl
@[simp] theorem storeByte_mem (a : Word) (b : Byte) : (s.storeByte a b).mem = s.mem.write a.toNat b := rfl
@[simp] theorem storeByte_control (a : Word) (b : Byte) : (s.storeByte a b).control = s.control := rfl
@[simp] theorem storeByte_aliasData (a : Word) (b : Byte) : (s.storeByte a b).aliasData = s.aliasData := rfl
@[simp] theorem storeByte_schedule (a : Word) (b : Byte) : (s.storeByte a b).schedule = s.schedule := rfl

@[simp] theorem fallThrough_cfg : (s.fallThrough).cfg = s.cfg := rfl
@[simp] theorem fallThrough_stored : (s.fallThrough).stored = s.stored := rfl
@[simp] theorem fallThrough_history : (s.fallThrough).history = s.history := rfl
@[simp] theorem fallThrough_inputs : (s.fallThrough).inputs = s.inputs := rfl
@[simp] theorem fallThrough_regs : (s.fallThrough).regs = s.regs := rfl
@[simp] theorem fallThrough_pc : (s.fallThrough).pc = s.pc + 4#32 := rfl
@[simp] theorem fallThrough_mem : (s.fallThrough).mem = s.mem := rfl
@[simp] theorem fallThrough_control : (s.fallThrough).control = s.control := rfl
@[simp] theorem fallThrough_aliasData : (s.fallThrough).aliasData = s.aliasData := rfl
@[simp] theorem fallThrough_schedule : (s.fallThrough).schedule = s.schedule := rfl

@[simp] theorem setStored_cfg (v : Word) : (s.setStored v).cfg = s.cfg := rfl
@[simp] theorem setStored_stored (v : Word) : (s.setStored v).stored = v := rfl
@[simp] theorem setStored_history (v : Word) : (s.setStored v).history = addValue v s.history := rfl
@[simp] theorem setStored_inputs (v : Word) : (s.setStored v).inputs = s.inputs := rfl
@[simp] theorem setStored_regs (v : Word) : (s.setStored v).regs = s.regs := rfl
@[simp] theorem setStored_pc (v : Word) : (s.setStored v).pc = s.pc := rfl
@[simp] theorem setStored_mem (v : Word) : (s.setStored v).mem = s.mem := rfl
@[simp] theorem setStored_control (v : Word) : (s.setStored v).control = s.control := rfl
@[simp] theorem setStored_aliasData (v : Word) : (s.setStored v).aliasData = s.aliasData := rfl
@[simp] theorem setStored_schedule (v : Word) : (s.setStored v).schedule = s.schedule := rfl

@[simp] theorem writeDbgvcr_cfg (v : Word) : (s.writeDbgvcr v).cfg = s.cfg := rfl
@[simp] theorem writeDbgvcr_stored (v : Word) : (s.writeDbgvcr v).stored = storedOfWrite s.cfg v := rfl
@[simp] theorem writeDbgvcr_history (v : Word) :
    (s.writeDbgvcr v).history = addValue (storedOfWrite s.cfg v) s.history := rfl
@[simp] theorem writeDbgvcr_inputs (v : Word) : (s.writeDbgvcr v).inputs = s.inputs := rfl
@[simp] theorem writeDbgvcr_regs (v : Word) : (s.writeDbgvcr v).regs = s.regs := rfl
@[simp] theorem writeDbgvcr_pc (v : Word) : (s.writeDbgvcr v).pc = s.pc := rfl
@[simp] theorem writeDbgvcr_mem (v : Word) : (s.writeDbgvcr v).mem = s.mem := rfl
@[simp] theorem writeDbgvcr_control (v : Word) : (s.writeDbgvcr v).control = s.control := rfl
@[simp] theorem writeDbgvcr_aliasData (v : Word) : (s.writeDbgvcr v).aliasData = s.aliasData := rfl
@[simp] theorem writeDbgvcr_schedule (v : Word) : (s.writeDbgvcr v).schedule = s.schedule := rfl

@[simp] theorem sync_cfg : (s.sync).cfg = s.cfg := rfl
@[simp] theorem sync_stored : (s.sync).stored = s.stored := rfl
@[simp] theorem sync_history : (s.sync).history = [s.stored] := rfl
@[simp] theorem sync_inputs : (s.sync).inputs = s.inputs := rfl
@[simp] theorem sync_regs : (s.sync).regs = s.regs := rfl
@[simp] theorem sync_pc : (s.sync).pc = s.pc := rfl
@[simp] theorem sync_mem : (s.sync).mem = s.mem := rfl
@[simp] theorem sync_control : (s.sync).control = s.control := rfl
@[simp] theorem sync_aliasData : (s.sync).aliasData = s.aliasData := rfl
@[simp] theorem sync_schedule : (s.sync).schedule = s.schedule := rfl

@[simp] theorem handOver_cfg (reason : Reason) (dir : Direction) (rt : RegIx) :
    (s.handOver reason dir rt).cfg = s.cfg := rfl
@[simp] theorem handOver_stored (reason : Reason) (dir : Direction) (rt : RegIx) :
    (s.handOver reason dir rt).stored = s.stored := rfl
@[simp] theorem handOver_history (reason : Reason) (dir : Direction) (rt : RegIx) :
    (s.handOver reason dir rt).history = s.history := rfl
@[simp] theorem handOver_inputs (reason : Reason) (dir : Direction) (rt : RegIx) :
    (s.handOver reason dir rt).inputs = s.inputs := rfl
@[simp] theorem handOver_regs (reason : Reason) (dir : Direction) (rt : RegIx) :
    (s.handOver reason dir rt).regs = s.regs := rfl
@[simp] theorem handOver_pc (reason : Reason) (dir : Direction) (rt : RegIx) :
    (s.handOver reason dir rt).pc = s.pc := rfl
@[simp] theorem handOver_mem (reason : Reason) (dir : Direction) (rt : RegIx) :
    (s.handOver reason dir rt).mem = s.mem := rfl
@[simp] theorem handOver_control (reason : Reason) (dir : Direction) (rt : RegIx) :
    (s.handOver reason dir rt).control = .handedOver ⟨reason, dir, rt, dbgvcrLoc⟩ := rfl
@[simp] theorem handOver_aliasData (reason : Reason) (dir : Direction) (rt : RegIx) :
    (s.handOver reason dir rt).aliasData = s.aliasData := rfl
@[simp] theorem handOver_schedule (reason : Reason) (dir : Direction) (rt : RegIx) :
    (s.handOver reason dir rt).schedule = s.schedule := rfl

@[simp] theorem resume_cfg (v : Word) : (s.resume v).cfg = s.cfg := rfl
@[simp] theorem resume_stored (v : Word) : (s.resume v).stored = s.stored := rfl
@[simp] theorem resume_history (v : Word) : (s.resume v).history = s.history := rfl
@[simp] theorem resume_inputs (v : Word) : (s.resume v).inputs = s.inputs := rfl
@[simp] theorem resume_regs (v : Word) : (s.resume v).regs = s.regs := rfl
@[simp] theorem resume_pc (v : Word) : (s.resume v).pc = v := rfl
@[simp] theorem resume_mem (v : Word) : (s.resume v).mem = s.mem := rfl
@[simp] theorem resume_control (v : Word) : (s.resume v).control = .program := rfl
@[simp] theorem resume_aliasData (v : Word) : (s.resume v).aliasData = s.aliasData := rfl
@[simp] theorem resume_schedule (v : Word) : (s.resume v).schedule = s.schedule := rfl

@[simp] theorem setInputs_cfg (i : Inputs) : (s.setInputs i).cfg = s.cfg := rfl
@[simp] theorem setInputs_stored (i : Inputs) : (s.setInputs i).stored = s.stored := rfl
@[simp] theorem setInputs_history (i : Inputs) : (s.setInputs i).history = s.history := rfl
@[simp] theorem setInputs_inputs (i : Inputs) : (s.setInputs i).inputs = i := rfl
@[simp] theorem setInputs_regs (i : Inputs) : (s.setInputs i).regs = s.regs := rfl
@[simp] theorem setInputs_pc (i : Inputs) : (s.setInputs i).pc = s.pc := rfl
@[simp] theorem setInputs_mem (i : Inputs) : (s.setInputs i).mem = s.mem := rfl
@[simp] theorem setInputs_control (i : Inputs) : (s.setInputs i).control = s.control := rfl
@[simp] theorem setInputs_aliasData (i : Inputs) : (s.setInputs i).aliasData = s.aliasData := rfl
@[simp] theorem setInputs_schedule (i : Inputs) : (s.setInputs i).schedule = s.schedule := rfl

@[simp] theorem setAliasData_cfg (v : Word) : (s.setAliasData v).cfg = s.cfg := rfl
@[simp] theorem setAliasData_stored (v : Word) : (s.setAliasData v).stored = s.stored := rfl
@[simp] theorem setAliasData_history (v : Word) : (s.setAliasData v).history = s.history := rfl
@[simp] theorem setAliasData_inputs (v : Word) : (s.setAliasData v).inputs = s.inputs := rfl
@[simp] theorem setAliasData_regs (v : Word) : (s.setAliasData v).regs = s.regs := rfl
@[simp] theorem setAliasData_pc (v : Word) : (s.setAliasData v).pc = s.pc := rfl
@[simp] theorem setAliasData_mem (v : Word) : (s.setAliasData v).mem = s.mem := rfl
@[simp] theorem setAliasData_control (v : Word) : (s.setAliasData v).control = s.control := rfl
@[simp] theorem setAliasData_aliasData (v : Word) : (s.setAliasData v).aliasData = v := rfl
@[simp] theorem setAliasData_schedule (v : Word) : (s.setAliasData v).schedule = s.schedule := rfl

@[simp] theorem setSchedule_cfg (ms : List Move) : (s.setSchedule ms).cfg = s.cfg := rfl
@[simp] theorem setSchedule_stored (ms : List Move) : (s.setSchedule ms).stored = s.stored := rfl
@[simp] theorem setSchedule_history (ms : List Move) : (s.setSchedule ms).history = s.history := rfl
@[simp] theorem setSchedule_inputs (ms : List Move) : (s.setSchedule ms).inputs = s.inputs := rfl
@[simp] theorem setSchedule_regs (ms : List Move) : (s.setSchedule ms).regs = s.regs := rfl
@[simp] theorem setSchedule_pc (ms : List Move) : (s.setSchedule ms).pc = s.pc := rfl
@[simp] theorem setSchedule_mem (ms : List Move) : (s.setSchedule ms).mem = s.mem := rfl
@[simp] theorem setSchedule_control (ms : List Move) : (s.setSchedule ms).control = s.control := rfl
@[simp] theorem setSchedule_aliasData (ms : List Move) : (s.setSchedule ms).aliasData = s.aliasData := rfl
@[simp] theorem setSchedule_schedule (ms : List Move) : (s.setSchedule ms).schedule = ms := rfl

/-! ### The register file and memory, as they are read -/

@[simp] theorem reg_setPc (v : Word) (r : RegIx) : (s.setPc v).reg r = s.reg r := rfl
@[simp] theorem reg_storeByte (a : Word) (b : Byte) (r : RegIx) : (s.storeByte a b).reg r = s.reg r := rfl
@[simp] theorem reg_fallThrough (r : RegIx) : (s.fallThrough).reg r = s.reg r := rfl
@[simp] theorem reg_setStored (v : Word) (r : RegIx) : (s.setStored v).reg r = s.reg r := rfl
@[simp] theorem reg_writeDbgvcr (v : Word) (r : RegIx) : (s.writeDbgvcr v).reg r = s.reg r := rfl
@[simp] theorem reg_sync (r : RegIx) : (s.sync).reg r = s.reg r := rfl
@[simp] theorem reg_handOver (reason : Reason) (dir : Direction) (rt : RegIx) (r : RegIx) :
    (s.handOver reason dir rt).reg r = s.reg r := rfl
@[simp] theorem reg_resume (v : Word) (r : RegIx) : (s.resume v).reg r = s.reg r := rfl
@[simp] theorem reg_setInputs (i : Inputs) (r : RegIx) : (s.setInputs i).reg r = s.reg r := rfl
@[simp] theorem reg_setAliasData (v : Word) (r : RegIx) : (s.setAliasData v).reg r = s.reg r := rfl
@[simp] theorem reg_setSchedule (ms : List Move) (r : RegIx) : (s.setSchedule ms).reg r = s.reg r := rfl

@[simp] theorem readByte_setReg (r : RegIx) (v : Word) (x : Word) : (s.setReg r v).readByte x = s.readByte x := rfl
@[simp] theorem readByte_setPc (v : Word) (x : Word) : (s.setPc v).readByte x = s.readByte x := rfl
@[simp] theorem readByte_fallThrough (x : Word) : (s.fallThrough).readByte x = s.readByte x := rfl
@[simp] theorem readByte_setStored (v : Word) (x : Word) : (s.setStored v).readByte x = s.readByte x := rfl
@[simp] theorem readByte_writeDbgvcr (v : Word) (x : Word) : (s.writeDbgvcr v).readByte x = s.readByte x := rfl
@[simp] theorem readByte_sync (x : Word) : (s.sync).readByte x = s.readByte x := rfl
@[simp] theorem readByte_handOver (reason : Reason) (dir : Direction) (rt : RegIx) (x : Word) :
    (s.handOver reason dir rt).readByte x = s.readByte x := rfl
@[simp] theorem readByte_resume (v : Word) (x : Word) : (s.resume v).readByte x = s.readByte x := rfl
@[simp] theorem readByte_setInputs (i : Inputs) (x : Word) : (s.setInputs i).readByte x = s.readByte x := rfl
@[simp] theorem readByte_setAliasData (v : Word) (x : Word) : (s.setAliasData v).readByte x = s.readByte x := rfl
@[simp] theorem readByte_setSchedule (ms : List Move) (x : Word) : (s.setSchedule ms).readByte x = s.readByte x := rfl

/-- A register that was written reads as what was written. -/
@[simp] theorem reg_setReg_same (r : RegIx) (v : Word) : (s.setReg r v).reg r = v := by
  simp [State.reg, State.setReg]

/-- Writing a register leaves every other register alone. -/
theorem reg_setReg_ne (r q : RegIx) (v : Word) (h : q ≠ r) : (s.setReg r v).reg q = s.reg q := by
  have h' : r.val ≠ q.val := fun e => h (Fin.ext e.symm)
  simp [State.reg, State.setReg, h']

end Sys2Proof.Machine
end

