-- ==== Sys2Proof/Laws/Ops.lean ====
section
/-! SUPPORT. What each shared operation can do, said once: the trap conditions, the reserved-bit filter, the history, the
operands and conditions, the access. -/

namespace Sys2Proof.Machine

/-! ### The trap conditions -/

theorem bit_eq_one_or_zero (b : BitVec 1) : b = 0#1 ∨ b = 1#1 := by
  revert b; decide

/-- R10: a pair of one-bit fields differs from '00' when one of them is 1. -/
theorem pair_ne_zero (a b : BitVec 1) : (a ++ b) ≠ 0b00#2 ↔ a = 1#1 ∨ b = 1#1 := by
  revert a b; decide

theorem e3t_iff (c : Config) (i : Inputs) : e3t c i = true ↔ El3Traps c i := by
  simp [e3t, El3Traps, and_assoc]

theorem e2t64_iff (c : Config) (i : Inputs) : e2t64 c i = true ↔ El2Traps64 c i := by
  simp only [e2t64, El2Traps64, ← pair_ne_zero]
  simp [and_assoc]

theorem e2t32_iff (c : Config) (i : Inputs) : e2t32 c i = true ↔ El2Traps32 c i := by
  simp only [e2t32, El2Traps32, ← pair_ne_zero]
  simp [and_assoc]

/-- What a trap outcome of the check chain says of its target: the guards of R101's calls. -/
theorem accessCheck_sysTrap64 {c : Config} {i : Inputs} {target : TrapTarget} {code : Byte}
    (h : accessCheck c i = .sysTrap64 target code) :
    code = 0x05#8 ∧ (target = .el2 ∧ El2Traps64 c i ∨ target = .el3 ∧ El3Traps c i) := by
  simp only [accessCheck, checkEL3Trap] at h
  split at h
  · cases h
  · split at h
    · cases h
    · split at h
      · cases h
      · split at h
        · next h2 => cases h; exact ⟨rfl, .inl ⟨rfl, (e2t64_iff _ _).1 h2⟩⟩
        · split at h
          · cases h
          · split at h
            · next h3 =>
              split at h
              · cases h
              · cases h; exact ⟨rfl, .inr ⟨rfl, (e3t_iff _ _).1 h3⟩⟩
            · cases h
    · split at h
      · cases h
      · split at h
        · next h3 =>
          split at h
          · cases h
          · cases h; exact ⟨rfl, .inr ⟨rfl, (e3t_iff _ _).1 h3⟩⟩
        · cases h
    · cases h

/-- What a Hyp trap outcome of the check chain says. -/
theorem accessCheck_hypTrap {c : Config} {i : Inputs} {code : Byte} (h : accessCheck c i = .hypTrap code) :
    code = 0x05#8 ∧ El2Traps32 c i := by
  simp only [accessCheck, checkEL3Trap] at h
  split at h
  · cases h
  · split at h
    · cases h
    · split at h
      · cases h
      · split at h
        · cases h
        · split at h
          · next h2 => cases h; exact ⟨rfl, (e2t32_iff _ _).1 h2⟩
          · repeat (split at h <;> try cases h)
    · repeat (split at h <;> try cases h)
    · cases h

/-! ### The reserved bits -/

theorem storedOfWrite_razWi {c : Config} (h : c.res0Mode = .razWi) (v : Word) :
    storedOfWrite c v = v &&& enableMask (layoutOf c) := by
  simp [storedOfWrite, h]

theorem storedOfWrite_rwNoEffect {c : Config} (h : c.res0Mode = .rwNoEffect) (v : Word) : storedOfWrite c v = v := by
  simp [storedOfWrite, h]

theorem readOfStored_razWi {c : Config} (h : c.res0Mode = .razWi) (v : Word) :
    readOfStored c v = v &&& enableMask (layoutOf c) := by
  simp [readOfStored, h]

theorem readOfStored_rwNoEffect {c : Config} (h : c.res0Mode = .rwNoEffect) (v : Word) : readOfStored c v = v := by
  simp [readOfStored, h]

/-- A read of a value that a write left gives that value. -/
@[simp] theorem readOfStored_storedOfWrite (c : Config) (v : Word) :
    readOfStored c (storedOfWrite c v) = storedOfWrite c v := by
  cases h : c.res0Mode <;> simp [readOfStored, storedOfWrite, h, BitVec.and_assoc]

/-- Writing back what a write left leaves the same. -/
@[simp] theorem storedOfWrite_idem (c : Config) (v : Word) :
    storedOfWrite c (storedOfWrite c v) = storedOfWrite c v := by
  cases h : c.res0Mode <;> simp [storedOfWrite, h, BitVec.and_assoc]

/-- What a write leaves has its hardwired bits clear (R35). -/
theorem reservedClear_storedOfWrite (c : Config) (v : Word) : ReservedClear c (storedOfWrite c v) := by
  intro h
  rw [storedOfWrite_razWi h, res0Mask, BitVec.and_assoc]
  simp

/-- A value whose hardwired bits are clear reads as itself. -/
theorem readOfStored_eq_self {c : Config} {v : Word} (h : ReservedClear c v) : readOfStored c v = v := by
  cases hm : c.res0Mode
  · rw [readOfStored_razWi hm]
    have h0 := h hm
    calc v &&& enableMask (layoutOf c)
        = (v &&& enableMask (layoutOf c)) ||| (v &&& res0Mask (layoutOf c)) := by rw [h0]; simp
      _ = v := by
        ext b hb
        simp only [res0Mask, BitVec.getElem_or, BitVec.getElem_and, BitVec.getElem_not]
        cases v[b] <;> simp
  · rw [readOfStored_rwNoEffect hm]

/-! ### The history -/

@[simp] theorem mem_addValue {v w : Word} {h : List Word} : w ∈ addValue v h ↔ w = v ∨ w ∈ h := by
  unfold addValue
  split
  · next hm => exact ⟨.inr, fun h' => h'.elim (fun e => e ▸ hm) id⟩
  · exact List.mem_cons

/-- A value already there is not added again. -/
theorem addValue_of_mem {v : Word} {h : List Word} (hm : v ∈ h) : addValue v h = h := if_pos hm

theorem addValue_nodup {v : Word} {h : List Word} (hn : h.Nodup) : (addValue v h).Nodup := by
  unfold addValue
  split
  · exact hn
  · next hm => exact List.nodup_cons.2 ⟨hm, hn⟩

/-! ### Operands and conditions -/

theorem admitRt_ok {rt : BitVec 4} {t : RegIx} : admitRt rt = .ok t ↔ rt.toNat = t.val := by
  unfold admitRt
  split
  · simp [Fin.ext_iff]
  · next h => simp; omega

theorem admitA32_ok {cond rt : BitVec 4} {t : RegIx} :
    admitA32 cond rt = .ok t ↔ cond ≠ 0b1111#4 ∧ rt.toNat = t.val := by
  unfold admitA32
  split
  · next h => simp [h]
  · next h => simp [h, admitRt_ok]

theorem admitT32_ok {rt : BitVec 4} {t : RegIx} : admitT32 rt = .ok t ↔ rt.toNat = t.val ∧ t.val ≠ 13 := by
  unfold admitT32
  split
  · next h =>
    simp only [h, reduceCtorEq, false_iff, not_and, not_not]
    intro e
    have : (13#4).toNat = 13 := by decide
    omega
  · next h =>
    rw [admitRt_ok]
    refine ⟨fun e => ⟨e, fun e' => h ?_⟩, fun e => e.1⟩
    apply BitVec.eq_of_toNat_eq
    have : (13#4).toNat = 13 := by decide
    omega

theorem condA32_passes {cond : BitVec 4} {i : Inputs} :
    condA32 cond i = .passes ↔ cond = 0b1110#4 ∨ i.condAnswer = .passes := by
  unfold condA32
  split
  · next h => simp [h]
  · next h => simp [h]

theorem condT32_passes {i : Inputs} : condT32 i = .passes ↔ RunsT32 i := by
  unfold condT32 RunsT32
  cases i.inITBlock <;> simp

/-! ### The access -/

/-- Everything an access can do when it answers a next state. -/
theorem access_next {dir : Direction} {rt : Except Refusal RegIx} {cond : CondAnswer} {s s' : State}
    (h : access dir rt cond s = .next s') :
    ∃ t, rt = .ok t ∧
      (cond = .fails ∧ s' = s.handOver .conditionFailed dir t ∨ cond = .passes ∧ s' = checkedAccess dir t s) := by
  unfold access at h
  split at h
  · cases h
  · cases h
  · cases h; exact ⟨_, rfl, .inl ⟨rfl, rfl⟩⟩
  · cases h; exact ⟨_, rfl, .inr ⟨rfl, rfl⟩⟩

/-- An admitted access whose condition passes answers the checked access. -/
@[simp] theorem access_passes (dir : Direction) (t : RegIx) (s : State) :
    access dir (.ok t) .passes s = .next (checkedAccess dir t s) := rfl

/-- Everything a checked access can be: the transfer, or a legal handover of an exceptional outcome. -/
theorem checkedAccess_cases (dir : Direction) (t : RegIx) (s : State) :
    accessCheck s.cfg s.inputs = .access ∧ checkedAccess dir t s = transfer dir t s ∨
      ∃ reason, checkedAccess dir t s = s.handOver reason dir t ∧
        Handover.Legal s.cfg ⟨reason, dir, t, dbgvcrLoc⟩ ∧ accessCheck s.cfg s.inputs ≠ .access ∧
        reason ≠ .conditionFailed := by
  unfold checkedAccess
  split
  · next h => exact .inl ⟨h, rfl⟩
  · next h => exact .inr ⟨_, rfl, ⟨rfl, trivial⟩, by simp [h], nofun⟩
  · next target code h =>
    refine .inr ⟨_, rfl, ⟨rfl, ?_⟩, by simp [h], nofun⟩
    obtain ⟨hc, ⟨ht, h2⟩ | ⟨ht, h3⟩⟩ := accessCheck_sysTrap64 h
    · subst ht; exact ⟨hc, h2.2.1⟩
    · subst ht; exact ⟨hc, h3.1, h3.2.1, h3.2.2.1⟩
  · next code h =>
    obtain ⟨hc, h2⟩ := accessCheck_hypTrap h
    exact .inr ⟨_, rfl, ⟨rfl, hc, h2.2.1⟩, by simp [h], nofun⟩

/-- A successful read, field by field, is a register write and the fall-through. -/
@[simp] theorem transfer_read (t : RegIx) (s : State) :
    transfer .read t s = (s.setReg t s.dbgvcr).fallThrough := rfl

/-- A successful write is a write of DBGVCR and the fall-through. -/
@[simp] theorem transfer_write (t : RegIx) (s : State) :
    transfer .write t s = (s.writeDbgvcr (s.reg t)).fallThrough := rfl

end Sys2Proof.Machine
end

