-- ==== Sys2Proof/Laws/PerInstr.lean ====
section
/-! SUPPORT. The family of statements about each instruction as syntax: its word carries the fixed bits of its row of
spec/opcode_table.json and its operands in their places. -/

namespace Sys2Proof.Laws.EncodedPattern

/-- The word of an instruction matches its row's pattern and holds its operands (R84, R85). -/
def Statement : Instr → Prop
  | .mrcA32 cond rt =>
    encodeWord (.mrcA32 cond rt) &&& 0x0FFF0FFF#32 = 0x0E100E17#32 ∧
      (encodeWord (.mrcA32 cond rt)).extractLsb' 28 4 = cond ∧ (encodeWord (.mrcA32 cond rt)).extractLsb' 12 4 = rt
  | .mcrA32 cond rt =>
    encodeWord (.mcrA32 cond rt) &&& 0x0FFF0FFF#32 = 0x0E000E17#32 ∧
      (encodeWord (.mcrA32 cond rt)).extractLsb' 28 4 = cond ∧ (encodeWord (.mcrA32 cond rt)).extractLsb' 12 4 = rt
  | .mrcT32 rt =>
    encodeWord (.mrcT32 rt) &&& 0xFFFF0FFF#32 = 0xEE100E17#32 ∧ (encodeWord (.mrcT32 rt)).extractLsb' 12 4 = rt
  | .mcrT32 rt =>
    encodeWord (.mcrT32 rt) &&& 0xFFFF0FFF#32 = 0xEE000E17#32 ∧ (encodeWord (.mcrT32 rt)).extractLsb' 12 4 = rt

theorem mrcA32 (cond rt : BitVec 4) : Statement (.mrcA32 cond rt) := by
  revert cond rt; unfold Statement; decide

theorem mcrA32 (cond rt : BitVec 4) : Statement (.mcrA32 cond rt) := by
  revert cond rt; unfold Statement; decide

theorem mrcT32 (rt : BitVec 4) : Statement (.mrcT32 rt) := by
  revert rt; unfold Statement; decide

theorem mcrT32 (rt : BitVec 4) : Statement (.mcrT32 rt) := by
  revert rt; unfold Statement; decide

end Sys2Proof.Laws.EncodedPattern
end

