-- ==== Sys2Proof/Laws/Step.lean ====
section
/-! SUPPORT. What the execution of an instruction, a move of an agent and a step can do, said once. -/

namespace Sys2Proof.Machine

/-- Everything `exec` can do when it answers a next state: the instruction names an admitted register, and either its
condition failed and control was handed over, or it ran the checked access. -/
theorem exec_next {i : Instr} {s s' : State} (h : exec i s = .next s') :
    ∃ t, Names i t ∧
      (¬ Runs i s.inputs ∧ s' = s.handOver .conditionFailed (dirOf i) t ∨
        Runs i s.inputs ∧ s' = checkedAccess (dirOf i) t s) := by
  cases i with
  | mrcA32 cond rt =>
    obtain ⟨t, ht, ⟨hc, he⟩ | ⟨hc, he⟩⟩ := access_next h
    · refine ⟨t, (admitA32_ok.1 ht).2, .inl ⟨fun hr => ?_, he⟩⟩
      rw [condA32_passes.2 hr.2] at hc; cases hc
    · exact ⟨t, (admitA32_ok.1 ht).2, .inr ⟨⟨(admitA32_ok.1 ht).1, condA32_passes.1 hc⟩, he⟩⟩
  | mcrA32 cond rt =>
    obtain ⟨t, ht, ⟨hc, he⟩ | ⟨hc, he⟩⟩ := access_next h
    · refine ⟨t, (admitA32_ok.1 ht).2, .inl ⟨fun hr => ?_, he⟩⟩
      rw [condA32_passes.2 hr.2] at hc; cases hc
    · exact ⟨t, (admitA32_ok.1 ht).2, .inr ⟨⟨(admitA32_ok.1 ht).1, condA32_passes.1 hc⟩, he⟩⟩
  | mrcT32 rt =>
    obtain ⟨t, ht, ⟨hc, he⟩ | ⟨hc, he⟩⟩ := access_next h
    · refine ⟨t, admitT32_ok.1 ht, .inl ⟨fun hr => ?_, he⟩⟩
      rw [condT32_passes.2 hr] at hc; cases hc
    · exact ⟨t, admitT32_ok.1 ht, .inr ⟨condT32_passes.1 hc, he⟩⟩
  | mcrT32 rt =>
    obtain ⟨t, ht, ⟨hc, he⟩ | ⟨hc, he⟩⟩ := access_next h
    · refine ⟨t, admitT32_ok.1 ht, .inl ⟨fun hr => ?_, he⟩⟩
      rw [condT32_passes.2 hr] at hc; cases hc
    · exact ⟨t, admitT32_ok.1 ht, .inr ⟨condT32_passes.1 hc, he⟩⟩

/-- An instruction that names an admitted register and whose condition passes is the checked access. -/
theorem exec_runs {i : Instr} {t : RegIx} {s : State} (hn : Names i t) (hr : Runs i s.inputs) :
    exec i s = .next (checkedAccess (dirOf i) t s) := by
  cases i with
  | mrcA32 cond rt =>
    show access .read (admitA32 cond rt) (condA32 cond s.inputs) s = _
    rw [admitA32_ok.2 ⟨hr.1, hn⟩, condA32_passes.2 hr.2]; rfl
  | mcrA32 cond rt =>
    show access .write (admitA32 cond rt) (condA32 cond s.inputs) s = _
    rw [admitA32_ok.2 ⟨hr.1, hn⟩, condA32_passes.2 hr.2]; rfl
  | mrcT32 rt =>
    show access .read (admitT32 rt) (condT32 s.inputs) s = _
    rw [admitT32_ok.2 hn, condT32_passes.2 hr]; rfl
  | mcrT32 rt =>
    show access .write (admitT32 rt) (condT32 s.inputs) s = _
    rw [admitT32_ok.2 hn, condT32_passes.2 hr]; rfl

/-- An instruction names at most one register. -/
theorem names_unique {i : Instr} {t u : RegIx} (ht : Names i t) (hu : Names i u) : t = u := by
  cases i <;> simp only [Names] at ht hu <;> apply Fin.ext <;> omega

/-- Everything a move of an agent can do when it answers a next state. -/
theorem act_next {a : Act} {s s' : State} (h : act a s = .next s') :
    match a with
    | .reset draw =>
      s.cfg.featAA32EL1 = true ∧ s' = s.setStored (storedOfWrite s.cfg draw) ∨ s.cfg.featAA32EL1 = false ∧ s' = s
    | .aliasRead => s.cfg.featAA32EL1 = true ∧ s' = s.setAliasData s.dbgvcr
    | .aliasWrite v => s.cfg.featAA32EL1 = true ∧ s' = s.writeDbgvcr v
    | .sync => s' = s.sync
    | .setInputs inputs => s' = s.setInputs inputs
    | .setReg r v => s' = s.setReg r v
    | .setPc pc => s' = s.setPc pc
    | .storeByte addr b => s' = s.storeByte addr b
    | .resume pc => s' = s.resume pc := by
  cases a with
  | reset draw =>
    simp only [act, State.resetEvent] at h
    split at h
    · next hf => cases h; exact .inl ⟨hf, rfl⟩
    · next hf => cases h; exact .inr ⟨by simpa using hf, rfl⟩
  | aliasRead =>
    simp only [act, aliasRead] at h
    split at h
    · next hf => cases h; exact ⟨hf, rfl⟩
    · cases h
  | aliasWrite v =>
    simp only [act, aliasWrite] at h
    split at h
    · next hf => cases h; exact ⟨hf, rfl⟩
    · cases h
  | sync => cases h; rfl
  | setInputs inputs => cases h; rfl
  | setReg r v => cases h; rfl
  | setPc pc => cases h; rfl
  | storeByte addr b => cases h; rfl
  | resume pc => cases h; rfl

/-- Everything the program's step can do when it answers a next state: run the instruction it decodes. -/
theorem runInstruction_next {s s' : State} (h : runInstruction s = .next s') :
    s.control = .program ∧ ∃ i rest, s.decodeHere = .ok (i, rest) ∧ exec i s = .next s' := by
  unfold runInstruction at h
  split at h
  · cases h
  · next hc =>
    split at h
    · next i rest hd => exact ⟨hc, i, rest, hd, h⟩
    · cases h
    · cases h

/-- Everything a step can do when it answers a next state: run an instruction, or make the agent's move that is first. -/
theorem step_next {s s' : State} (h : step s = .next s') :
    s.schedule = [] ∧ runInstruction s = .next s' ∨
      (∃ rest, s.schedule = .instruction :: rest ∧ runInstruction (s.setSchedule rest) = .next s') ∨
      ∃ a rest, s.schedule = .agent a :: rest ∧ act a (s.setSchedule rest) = .next s' := by
  unfold step at h
  split at h
  · next hs => exact .inl ⟨hs, h⟩
  · next rest hs => exact .inr (.inl ⟨rest, hs, h⟩)
  · next a rest hs => exact .inr (.inr ⟨a, rest, hs, h⟩)

/-- The same by who moves: the program runs an instruction, or an agent makes the move that is first. -/
theorem step_next_mover {s s' : State} (h : step s = .next s') :
    (∃ i ms, ProgramRuns s i ∧ exec i (s.setSchedule ms) = .next s') ∨
      ∃ a rest, s.schedule = .agent a :: rest ∧ act a (s.setSchedule rest) = .next s' := by
  rcases step_next h with ⟨hs, hr⟩ | ⟨ms, hs, hr⟩ | ha
  · obtain ⟨hc, i, rest, hd, he⟩ := runInstruction_next hr
    exact .inl ⟨i, s.schedule, ⟨hc, .inl hs, rest, hd⟩, he⟩
  · obtain ⟨hc, i, rest, hd, he⟩ := runInstruction_next hr
    exact .inl ⟨i, ms, ⟨hc, .inr ⟨ms, hs⟩, rest, hd⟩, he⟩
  · exact .inr ha

/-- What the decoder reads at the pc does not depend on the schedule. -/
@[simp] theorem decodeHere_setSchedule (s : State) (ms : List Move) :
    (s.setSchedule ms).decodeHere = s.decodeHere := rfl

end Sys2Proof.Machine
end

