-- ==== Sys2Proof/Laws/VectorCatch.lean ====
section
/-! SUPPORT. Which bits of the generator's view the history leaves open. -/

namespace Sys2Proof.Machine

/-- A bit is open exactly when some value of the history differs from `stored` there. -/
theorem getLsbD_openBits (stored : Word) (hs : List Word) (b : Nat) :
    (openBits stored hs).getLsbD b = true ↔ ∃ h ∈ hs, h.getLsbD b ≠ stored.getLsbD b := by
  induction hs with
  | nil => simp [openBits]
  | cons h hs ih =>
    simp only [openBits, BitVec.getLsbD_or, BitVec.getLsbD_xor, Bool.or_eq_true, ih, List.exists_mem_cons_iff]
    cases h.getLsbD b <;> cases stored.getLsbD b <;> simp

/-- With nothing but `stored` in the history no bit is open. -/
@[simp] theorem openBits_self (stored : Word) : openBits stored [stored] = 0#32 := by
  simp [openBits]

end Sys2Proof.Machine
end

