-- ==== Sys2Proof/Tests/Slice0.lean ====
section
/-! SUPPORT. The model's own tests: the vectors of spec/95_test_vectors.md (the expected values are that file's), the
refusals of WellFormed, and for every statement with hypotheses a concrete state that meets them. -/

namespace Sys2Proof.Tests

open Sys2Proof.Machine

/-! ### Builders -/

/-- No EL3, no feature but FEAT_AA32EL1: layout L_NOEL3. -/
def bare : Config :=
  { Config.chosen with haveEL3 := false, el3AArch32 := false }

/-- The inputs at an Exception level, every other one false or 0. -/
def at' (el : EL) : Inputs := { Inputs.chosen with el := el }

/-- A machine of configuration `c` with inputs `i`, `stored` = 0x58 and every general register holding `v`. -/
def machine (c : Config) (i : Inputs) (v : Word) : State :=
  { State.resetOf c 0x58#32 with inputs := i, regs := Vector.replicate 15 v }

/-- Whether an execution answers a next state that passes a check. -/
def nextIs (o : Host.Outcome State Fault Refusal) (p : State → Bool) : Bool :=
  match o with
  | .next s => p s
  | .fault _ => false
  | .refused _ => false

/-! ### WellFormed: an ill-formed term for each check -/

theorem test_wellFormed_refuses_cond_never : (Instr.mrcA32 0b1111#4 0#4).illFormed = some .condNever := by decide
theorem test_wellFormed_refuses_rt15_a32 : (Instr.mcrA32 0b1110#4 15#4).illFormed = some .rt15 := by decide
theorem test_wellFormed_refuses_rt15_t32 : (Instr.mrcT32 15#4).illFormed = some .rt15 := by decide
theorem test_wellFormed_refuses_rt13_t32 : (Instr.mcrT32 13#4).illFormed = some .rt13T32 := by decide
theorem test_wellFormed_accepts : (Instr.mrcA32 0b1110#4 13#4).wellFormed = true ∧ (Instr.mcrT32 14#4).wellFormed = true := by
  decide

/-! ### Decoding: words written out from the figures of R84 and R85 (vectors E1 to E19) -/

theorem test_decode_mrcA32 :
    decodeWord .a32 0b1110_1110_000_1_0000_0001_1110_000_1_0111#32 = .ok (.mrcA32 0b1110#4 1#4) ∧
    decodeWord .a32 0b0000_1110_000_1_0000_0000_1110_000_1_0111#32 = .ok (.mrcA32 0b0000#4 0#4) ∧
    decodeWord .a32 0b1110_1110_000_1_0000_1111_1110_000_1_0111#32 = .ok (.mrcA32 0b1110#4 15#4) := by decide

theorem test_decode_mcrA32 :
    decodeWord .a32 0b1110_1110_000_0_0000_1100_1110_000_1_0111#32 = .ok (.mcrA32 0b1110#4 12#4) ∧
    decodeWord .a32 0b0001_1110_000_0_0000_0101_1110_000_1_0111#32 = .ok (.mcrA32 0b0001#4 5#4) := by decide

theorem test_decode_mrcT32 :
    decodeWord .t32 0b11101110_000_1_0000_1101_1110_000_1_0111#32 = .ok (.mrcT32 13#4) := by decide

theorem test_decode_mcrT32 :
    decodeWord .t32 0b11101110_000_0_0000_0011_1110_000_1_0111#32 = .ok (.mcrT32 3#4) := by decide

/-- E10 to E15: a word that differs from DBGVCR's in one field is "not mine". -/
theorem test_decode_not_mine :
    [0xFE100E17#32, 0xEE100E37#32, 0xEE100E16#32, 0xEE110E17#32, 0xEE300E17#32, 0xEE100F17#32].all
      (fun w => decide (decodeWord .a32 w = .error .notMine)) = true := by decide

theorem test_decode_bytes_in_order :
    decode .little .a32 [0x17#8, 0x1E#8, 0x10#8, 0xEE#8, 0xFF#8] = .ok (.mrcA32 0b1110#4 1#4, [0xFF#8]) ∧
    decode .little .t32 [0x10#8, 0xEE#8, 0x17#8, 0x1E#8] = .ok (.mrcT32 1#4, []) ∧
    decode .big .t32 [0xEE#8, 0x10#8, 0x1E#8, 0x17#8] = .ok (.mrcT32 1#4, []) ∧
    decode .big .a32 [0xEE#8, 0x10#8, 0x1E#8] = .error .tooShort := by decide

theorem test_decodeTableWord :
    decodeTableWord 32 0x0E100E17 = some (.mrcA32 0#4 0#4) ∧ decodeTableWord 32 0x0E000E17 = some (.mcrA32 0#4 0#4) ∧
    decodeTableWord 32 0xEE100E17 = some (.mrcT32 0#4) ∧ decodeTableWord 32 0xEE000E17 = some (.mcrT32 0#4) := by
  decide

/-! ### The tables of the register (vectors L1 to L4, W5 to W10, V1 to V16) -/

theorem test_layouts :
    layoutOf Config.chosen = .el3A32 ∧ layoutOf { Config.chosen with el3AArch32 := false } = .el3A64 ∧
    layoutOf bare = .noEL3 ∧ layoutOf { bare with el3AArch32 := true } = .noEL3 := by decide

theorem test_enabled_fields :
    enabledFields .el3A32 0x12345678#32 = ["NSD", "NSU", "MI", "MD", "MS", "SI", "SD", "SP"] ∧
    enabledFields .el3A64 0x12345678#32 = ["NSD", "NSU", "SI", "SD", "SP"] ∧
    enabledFields .noEL3 0xA5A5A5A5#32 = ["F", "S"] := by decide

theorem test_masked_writes :
    storedOfWrite Config.chosen 0x12345678#32 = 0x12005458#32 ∧ storedOfWrite Config.chosen 0x21FFFF21#32 = 0xDC00#32 ∧
    storedOfWrite bare 0xFFFFFFFF#32 = 0xDE#32 ∧
    storedOfWrite { bare with res0Mode := .rwNoEffect } 0xFFFFFFFF#32 = 0xFFFFFFFF#32 := by decide

theorem test_enable_lookup :
    vcEnabled .el3A32 .nonSecure .fiq 0x80000000#32 = true ∧ vcEnabled .el3A32 .secure .fiq 0x80000000#32 = false ∧
    vcEnabled .el3A32 .monitor .smc 0x400#32 = true ∧ vcEnabled .el3A32 .monitor .svc 0x400#32 = false ∧
    vcEnabled .el3A32 .monitor .undef 0xFFFFFFFF#32 = false ∧ vcEnabled .el3A64 .monitor .fiq 0xFFFFFFFF#32 = false ∧
    vcEnabled .el3A64 .nonSecure .undef 0x02000000#32 = true ∧ vcEnabled .noEL3 .monitor .dataAbort 0x10#32 = true ∧
    vcEnabled .noEL3 .secure .smc 0x4#32 = false ∧ vcEnabled .el3A32 .monitor .irq 0x12005458#32 = true := by decide

/-- H3: history 0x02, 0x04, 0x10 leaves bits 1, 2 and 4 open. -/
theorem test_view_window :
    let s := { machine bare (at' .el1) 0#32 with stored := 0x10#32, history := [0x10#32, 0x04#32, 0x02#32] }
    s.vcView 0#32 = 0x10#32 ∧ s.vcView 0xFFFFFFFF#32 = 0x06#32 ∧ s.vcView 0x10#32 = 0#32 := by decide

/-! ### The access checks (vectors A1 to A35) -/

/-- FEAT_AA64EL2 with EL2 enabled. -/
def el2A64 : Inputs := { at' .el1 with el2Enabled := true }
/-- EL2 enabled and using AArch32. -/
def el2A32 : Inputs := { at' .el1 with el2Enabled := true, el2AArch32 := true }
/-- EL3 using AArch64 that sets its trap control. -/
def el3A64 : Config := { Config.chosen with el3AArch32 := false, featAA64EL3 := true }
/-- A64 EL2 beside it. -/
def el3el2 : Config := { el3A64 with featAA64EL2 := true, featAA32EL2 := true }
/-- The EL3 trap control set, at a level. -/
def tda (i : Inputs) : Inputs := { i with mdcrEl3Tda := 1#1 }

theorem test_access_undefined :
    accessCheck { Config.chosen with featAA32EL1 := false } (at' .el3) = .undefined ∧
    accessCheck bare (at' .el0) = .undefined ∧
    accessCheck { bare with featAA64EL2 := true } { el2A64 with el := .el0, mdcrEl2Tda := 1#1 } = .undefined ∧
    accessCheck el3A64 { tda (at' .el1) with sddUndef := true } = .undefined ∧
    accessCheck el3el2 { tda el2A64 with mdcrEl2Tda := 1#1, sddUndef := true, sddUndefPriority := true } = .undefined ∧
    accessCheck el3A64 { tda (at' .el2) with sddUndef := true } = .undefined ∧
    accessCheck el3A64 { tda (at' .el2) with sddUndefPriority := true } = .undefined ∧
    accessCheck el3A64 { tda (at' .el1) with sddUndefPriority := true } = .undefined := by decide

theorem test_access_trapped :
    accessCheck { bare with featAA64EL2 := true } { el2A64 with mdcrEl2Tda := 1#1 } = .sysTrap64 .el2 0x05#8 ∧
    accessCheck { bare with featAA64EL2 := true } { el2A64 with mdcrEl2Tde := 1#1 } = .sysTrap64 .el2 0x05#8 ∧
    accessCheck { bare with featAA32EL2 := true } { el2A32 with hdcrTda := 1#1 } = .hypTrap 0x05#8 ∧
    accessCheck { bare with featAA32EL2 := true } { el2A32 with hdcrTde := 1#1 } = .hypTrap 0x05#8 ∧
    accessCheck el3A64 (tda (at' .el1)) = .sysTrap64 .el3 0x05#8 ∧
    accessCheck el3el2 { tda el2A64 with mdcrEl2Tda := 1#1, sddUndef := true } = .sysTrap64 .el2 0x05#8 ∧
    accessCheck el3el2 { tda el2A32 with hdcrTda := 1#1 } = .hypTrap 0x05#8 ∧
    accessCheck el3A64 (tda (at' .el2)) = .sysTrap64 .el3 0x05#8 := by decide

theorem test_access_performed :
    accessCheck bare (at' .el1) = .access ∧
    accessCheck { bare with featAA64EL2 := true } { at' .el1 with mdcrEl2Tda := 1#1, mdcrEl2Tde := 1#1 } = .access ∧
    accessCheck bare { el2A64 with mdcrEl2Tda := 1#1, mdcrEl2Tde := 1#1 } = .access ∧
    accessCheck { bare with featAA32EL2 := true } { el2A64 with hdcrTda := 1#1, hdcrTde := 1#1 } = .access ∧
    accessCheck { bare with featAA64EL2 := true } { el2A32 with mdcrEl2Tda := 1#1, mdcrEl2Tde := 1#1 } = .access ∧
    accessCheck { el3A64 with el3AArch32 := true } (tda (at' .el1)) = .access ∧
    accessCheck { bare with featAA64EL3 := true } (tda (at' .el1)) = .access ∧
    accessCheck el3A64 { at' .el1 with sddUndef := true, sddUndefPriority := true } = .access ∧
    accessCheck { bare with featAA32EL2 := true } { el2A32 with el := .el2, hdcrTda := 1#1, hdcrTde := 1#1 } = .access ∧
    accessCheck el3el2 { tda el2A32 with el := .el3, mdcrEl2Tda := 1#1, hdcrTda := 1#1, sddUndef := true } = .access := by
  decide

/-! ### The instructions -/

/-- R103's worked example: A32 word 0xEE101E17. -/
theorem test_mrcA32_worked_example :
    nextIs (step ((machine bare (at' .el1) 7#32).withFetchWord 32 0x0E101E17))
      (fun s => decide (s.reg 1 = 0x58#32 ∧ s.reg 0 = 7#32 ∧ s.stored = 0x58#32 ∧ s.pc = 4#32)) = true := by decide

/-- R104's worked example: x[0] = 0x12345678 at EL3. -/
theorem test_mcrA32_worked_example :
    nextIs (exec (.mcrA32 0b1110#4 0#4) (machine Config.chosen (at' .el3) 0x12345678#32))
      (fun s => decide (s.stored = 0x12005458#32 ∧ s.reg 0 = 0x12345678#32 ∧ s.pc = 4#32)) = true := by decide

/-- P1 in T32, under RW_NO_EFFECT. -/
theorem test_mcrT32_keeps_reserved_bits :
    nextIs (step ((machine { Config.chosen with res0Mode := .rwNoEffect } (at' .el3) 0xFFFFFFFF#32).withFetchWord 32
        0xEE000E17))
      (fun s => decide (s.stored = 0xFFFFFFFF#32 ∧ s.inputs.iset = .t32 ∧ s.pc = 4#32)) = true := by decide

/-- P4: trapped by EL2, nothing changed. -/
theorem test_mrcT32_trapped :
    nextIs (exec (.mrcT32 14#4) (machine { bare with featAA64EL2 := true } { el2A64 with mdcrEl2Tda := 1#1 } 0x11#32))
      (fun s => decide (s.control = .handedOver ⟨.sysTrap64 .el2 0x05#8, .read, 14, dbgvcrLoc⟩ ∧ s.reg 14 = 0x11#32 ∧
        s.stored = 0x58#32 ∧ s.pc = 0#32)) = true := by decide

/-- W32: a write through the alias is what an MRC reads next. -/
theorem test_alias_write_then_mrc :
    nextIs (step { machine bare (at' .el1) 0#32 with schedule := [.agent (.aliasWrite 0x84#32)] })
      (fun s => nextIs (exec (.mrcA32 0b1110#4 3#4) s) fun s' => decide (s'.reg 3 = 0x84#32)) = true := by decide

/-- The first instruction after reset runs, in both sets. -/
theorem test_first_instruction_after_reset :
    nextIs (step (State.reset.withFetchWord 32 0x0E100E17)) (fun s => decide (s.pc = 4#32)) = true ∧
    nextIs (step (State.reset.withFetchWord 32 0xEE000E17)) (fun s => decide (s.pc = 4#32)) = true := by decide

/-! ### Witnesses: for every statement with hypotheses, concrete values that meet them all together

The first and the last register an access admits are 0 and 14 (12 and 14 in T32, next to the refused 13). -/

/-- A machine at EL3 of the chosen configuration, every register holding `v`, with the given schedule. -/
def good (v : Word) (ms : List Move) : State := { machine Config.chosen (at' .el3) v with schedule := ms }

/-- A machine whose register is absent. -/
def absent (ms : List Move) : State := { machine { bare with featAA32EL1 := false } (at' .el1) 0#32 with schedule := ms }

/-- A machine whose code at the pc, three below the top of the address space so that its last byte lies at address 0, is
the given word. -/
def loaded (set : InstrSet) (w : Word) (ms : List Move) : State :=
  let s := { good 0#32 ms with pc := 0xFFFFFFFD#32, inputs := { at' .el3 with iset := set } }
  { s with mem := s.mem.writeBytes s.pc (bytesOfWord .little set w) }

theorem good_allowed (v : Word) (ms : List Move) : AccessAllowed (good v ms).cfg (good v ms).inputs :=
  And.intro rfl trivial

theorem el1_allowed : AccessAllowed el3el2 el2A32 :=
  And.intro rfl ⟨fun h => absurd h.2.2.2 (by decide), fun h => absurd h.2.2.1 (by decide),
    fun h => absurd h.2.2.2 (by decide)⟩

theorem el2_allowed : AccessAllowed el3A64 (at' .el2) := And.intro rfl (fun h => absurd h.2.2.2 (by decide))

theorem always_runs (i : Inputs) (rt : BitVec 4) : RunsA32 0b1110#4 i ∧ Runs (.mcrA32 0b1110#4 rt) i :=
  ⟨⟨by decide, .inl rfl⟩, ⟨by decide, .inl rfl⟩⟩

theorem witness_StepRunsTheDecodedInstruction :
    ([[], [Move.instruction]].all fun ms =>
      let s := loaded .a32 0xEE10EE17#32 ms
      decide (s.control = .program ∧ s.readByte s.pc = some 0x17#8 ∧ s.readByte (s.pc + 1#32) = some 0xEE#8 ∧
        s.readByte (s.pc + 2#32) = some 0x10#8 ∧ s.readByte (s.pc + 3#32) = some 0xEE#8 ∧ s.schedule = ms ∧
        decode s.cfg.codeOrder s.inputs.iset [0x17#8, 0xEE#8, 0x10#8, 0xEE#8] = .ok (.mrcA32 0b1110#4 14#4, []))) =
      true := by decide

theorem witness_DecodingFollowsTheMasksAndMatches :
    (∀ i, decodeWord .a32 0xFE100E17#32 ≠ .ok i) ∧ (∀ i, decodeWord .t32 0x0E100E17#32 ≠ .ok i) := by
  constructor <;> intro i h <;> cases h

theorem witness_StoredInstructionIsDecodedAndRun :
    [(Instr.mrcA32 0b0000#4 15#4), .mcrA32 0b1110#4 0#4, .mrcT32 0#4, .mcrT32 15#4].all (fun i =>
      let s := loaded i.iset 0#32 []
      decide (i.encodable = true ∧ s.inputs.iset = i.iset ∧ s.control = .program ∧ s.schedule = [])) = true := by decide

theorem witness_DecodedWordIsTheEncoding :
    decodeWord .a32 0x0E10FE17#32 = .ok (.mrcA32 0#4 15#4) ∧ decodeWord .t32 0xEE00FE17#32 = .ok (.mcrT32 15#4) := by
  decide

theorem witness_PlacedWordRunsNext :
    decodeTableWord 32 0x1E005E17 = some (.mcrA32 1#4 5#4) ∧ decodeTableWord 32 0xEE10EE17 = some (.mrcT32 14#4) ∧
    decodeTableWord 32 0xFE100E17 = none := by decide

theorem witness_UnfetchableOrForeignCodeStops :
    (let s := { good 0#32 [] with mem := [(0, 0x17#8), (1, 0x0E#8), (2, 0x10#8)] }
     s.control = .program ∧ s.schedule = [] ∧ s.readByte (s.pc + 2#32) = some 0x10#8 ∧
      s.readByte (s.pc + 3#32) = none) ∧
    (let s := good 0#32 []
     s.control = .program ∧ s.schedule = [] ∧ s.readByte s.pc = none) ∧
    (let s := loaded .a32 0xEE100E37#32 []
     s.control = .program ∧ s.schedule = [] ∧ s.readByte s.pc = some 0x37#8 ∧ s.readByte (s.pc + 1#32) = some 0x0E#8 ∧
      s.readByte (s.pc + 2#32) = some 0x10#8 ∧ s.readByte (s.pc + 3#32) = some 0xEE#8 ∧
      decodeWord s.inputs.iset (wordOfBytes s.cfg.codeOrder s.inputs.iset 0x37#8 0x0E#8 0x10#8 0xEE#8) =
        .error .notMine) := by decide

/-- Two inputs at EL2 that differ in every control of EL2, and two at EL3 that differ in those of EL3 as well. -/
theorem witness_OwnAndLowerControlsNeverTrap :
    (let i := at' .el2
     let j := { el2A32 with el := .el2, mdcrEl2Tde := 1#1, mdcrEl2Tda := 1#1, hdcrTde := 1#1, hdcrTda := 1#1 }
     i.el = j.el ∧ i.el ≠ .el1 ∧ i.mdcrEl3Tda = j.mdcrEl3Tda ∧ i.sddUndefPriority = j.sddUndefPriority ∧
      i.sddUndef = j.sddUndef ∧ i.hdcrTda ≠ j.hdcrTda) ∧
    (let i := at' .el3
     let j := tda (at' .el3)
     i.el = j.el ∧ i.el ≠ .el1 ∧ i.el = .el3 ∧ Config.chosen.featAA32EL1 = true ∧ i.mdcrEl3Tda ≠ j.mdcrEl3Tda) := by
  decide

/-- Each clause, with every trap that it does not exclude set as well. -/
theorem witness_TrapPriorityAtEl1 :
    (el3el2.featAA32EL1 = true ∧ (tda el2A64).el = .el1 ∧
      El3Traps el3el2 { tda el2A64 with mdcrEl2Tda := 1#1, sddUndefPriority := true }) ∧
    (El3Traps el3el2 { tda el2A64 with mdcrEl2Tda := 1#1 } ∧ (tda el2A64).sddUndefPriority = false ∧
      El2Traps64 el3el2 { tda el2A64 with mdcrEl2Tda := 1#1 }) ∧
    (El3Traps el3el2 { tda el2A32 with hdcrTda := 1#1 } ∧ (tda el2A32).sddUndefPriority = false ∧
      (tda el2A32).el = .el1 ∧ El2Traps32 el3el2 { tda el2A32 with hdcrTda := 1#1 }) ∧
    (El3Traps el3el2 (tda el2A64) ∧ ¬ El2Traps64 el3el2 (tda el2A64) ∧ ¬ El2Traps32 el3el2 (tda el2A64) ∧
      (tda el2A64).sddUndef = false ∧ ({ tda el2A64 with sddUndef := true } : Inputs).sddUndef = true) :=
  ⟨⟨rfl, rfl, rfl, rfl, rfl, rfl⟩, ⟨⟨rfl, rfl, rfl, rfl⟩, rfl, rfl, rfl, rfl, .inr rfl⟩,
    ⟨⟨rfl, rfl, rfl, rfl⟩, rfl, rfl, rfl, rfl, rfl, .inr rfl⟩, ⟨rfl, rfl, rfl, rfl⟩,
    fun h => absurd h.2.2.2 (by decide), fun h => absurd h.2.2.1 (by decide), rfl, rfl⟩

theorem witness_DebugPredicatesMatterOnlyUnderAnEl3Trap : ¬ El3Traps el3A64 (at' .el1) :=
  fun h => absurd h.2.2.2 (by decide)

/-- A32 with cond "always" and no evaluation of conditions, A32 with EQ that passes, T32 outside an IT block and inside
one whose condition passes, at EL3, EL2 and EL1. McrWritesTheRegister has the same hypotheses. -/
theorem witness_MrcReadsTheRegister_McrWritesTheRegister :
    (let s := good 0#32 []
     (0#4).toNat = (0 : RegIx).val ∧ AccessAllowed s.cfg s.inputs ∧ RunsA32 0b0000#4 s.inputs ∧ (0#4) ≠ 13#4 ∧
      RunsT32 s.inputs ∧ ReservedClear s.cfg s.stored) ∧
    (let s := machine el3A64 { at' .el2 with condAnswer := .notSupplied } 0#32
     (14#4).toNat = (14 : RegIx).val ∧ AccessAllowed s.cfg s.inputs ∧ RunsA32 0b1110#4 s.inputs ∧ (14#4) ≠ 13#4 ∧
      RunsT32 s.inputs ∧ ReservedClear s.cfg s.stored) ∧
    (let s := machine el3el2 { el2A32 with inITBlock := true } 0#32
     (12#4).toNat = (12 : RegIx).val ∧ AccessAllowed s.cfg s.inputs ∧ (12#4) ≠ 13#4 ∧ RunsT32 s.inputs) :=
  ⟨⟨rfl, good_allowed _ _, ⟨by decide, .inr rfl⟩, by decide, .inl rfl, fun _ => by decide⟩,
    ⟨rfl, el2_allowed, ⟨by decide, .inl rfl⟩, by decide, .inl rfl, fun _ => by decide⟩,
    ⟨rfl, el1_allowed, by decide, .inr rfl⟩⟩

/-- Each kind of outcome, at a state where both sets' forms run. -/
theorem witness_ExceptionalOutcomeHandsOver :
    (accessCheck bare (at' .el0) = .undefined ∧ RunsA32 0b1110#4 (at' .el0) ∧ RunsT32 (at' .el0)) ∧
    (accessCheck { bare with featAA64EL2 := true } { el2A64 with mdcrEl2Tde := 1#1 } = .sysTrap64 .el2 0x05#8 ∧
      RunsA32 0b1110#4 { el2A64 with mdcrEl2Tde := 1#1 } ∧ RunsT32 { el2A64 with mdcrEl2Tde := 1#1 }) ∧
    (accessCheck el3A64 (tda (at' .el2)) = .sysTrap64 .el3 0x05#8 ∧ RunsA32 0b1110#4 (tda (at' .el2)) ∧
      RunsT32 (tda (at' .el2))) ∧
    (accessCheck el3el2 { tda el2A32 with hdcrTda := 1#1 } = .hypTrap 0x05#8 ∧
      RunsA32 0b1110#4 { tda el2A32 with hdcrTda := 1#1 } ∧ RunsT32 { tda el2A32 with hdcrTda := 1#1 }) ∧
    (0#4).toNat = (0 : RegIx).val ∧ (14#4).toNat = (14 : RegIx).val ∧ (14#4) ≠ 13#4 :=
  ⟨⟨by decide, (always_runs _ 0#4).1, .inl rfl⟩, ⟨by decide, (always_runs _ 0#4).1, .inl rfl⟩,
    ⟨by decide, (always_runs _ 0#4).1, .inl rfl⟩, ⟨by decide, (always_runs _ 0#4).1, .inl rfl⟩, rfl, rfl, by decide⟩

theorem witness_FailedConditionHandsOver :
    let i := { at' .el3 with condAnswer := .fails, inITBlock := true }
    (14#4).toNat = (14 : RegIx).val ∧ i.condAnswer = .fails ∧ (0#4 : BitVec 4) ≠ 0b1111#4 ∧
      (0#4 : BitVec 4) ≠ 0b1110#4 ∧ (14#4) ≠ 13#4 ∧ i.inITBlock = true := by decide

theorem witness_RefusedFormsStopByName :
    let i := { at' .el3 with condAnswer := .notSupplied, inITBlock := true }
    i.condAnswer = .notSupplied ∧ i.inITBlock = true ∧ (13#4 : BitVec 4) ≠ 0b1111#4 ∧ (13#4 : BitVec 4) ≠ 0b1110#4 ∧
      (14#4) ≠ 13#4 ∧ (14#4) ≠ 15#4 ∧ (0xFE100E17#32).extractLsb' 28 4 = 0b1111#4 := by decide

/-- A state in which both are performed, one in which both are Undefined, and one in which both are trapped. -/
theorem witness_ReadAndWriteAreCheckedAlike :
    (∀ s ∈ [good 0#32 [], machine bare (at' .el0) 0#32, machine el3A64 (tda (at' .el2)) 0#32],
      s.control = .program ∧ Names (.mrcA32 0b1110#4 0#4) 0 ∧ Names (.mcrT32 14#4) 14 ∧
        Runs (.mrcA32 0b1110#4 0#4) s.inputs ∧ Runs (.mcrT32 14#4) s.inputs) ∧
    accessCheck Config.chosen (at' .el3) = .access ∧ accessCheck bare (at' .el0) = .undefined ∧
    accessCheck el3A64 (tda (at' .el2)) = .sysTrap64 .el3 0x05#8 := by
  refine ⟨fun s hs => ?_, by decide, by decide, by decide⟩
  simp only [List.mem_cons, List.not_mem_nil, or_false] at hs
  rcases hs with rfl | rfl | rfl <;> exact ⟨rfl, rfl, ⟨rfl, by decide⟩, (always_runs _ 0#4).1, .inl rfl⟩

theorem witness_A32AndT32FormsAgree :
    (12#4) ≠ 13#4 ∧ (14#4) ≠ 13#4 ∧ (15#4) ≠ 13#4 ∧ (good 0#32 []).inputs.inITBlock = false := by decide

/-- A form that runs, an execution that answers a next state, and steps with each of the three outcomes: the program's
step, a refused move, and the moves that the draw and the synchronisation point would make. -/
theorem witness_AbsentRegisterIsUnobservable :
    (absent []).cfg.featAA32EL1 = false ∧ Names (.mcrA32 0b1110#4 14#4) 14 ∧
    Runs (.mcrA32 0b1110#4 14#4) (absent []).inputs ∧
    nextIs (exec (.mcrA32 0b1110#4 14#4) (absent []))
      (fun s => decide (s.control = .handedOver ⟨.undefined, .write, 14, dbgvcrLoc⟩)) = true ∧
    step (absent []) = .fault .codeUnwritten ∧ step (absent [.agent .aliasRead]) = .refused .noAliasRegister ∧
    nextIs (step (absent [.agent (.reset 5#32)])) (fun s => decide (s.stored = 0x58#32)) = true ∧
    nextIs (step (absent [.agent .sync])) (fun s => decide (s.stored = 0x58#32)) = true :=
  ⟨rfl, rfl, (always_runs _ _).2, by decide, rfl, rfl, by decide, by decide⟩

/-- Each Exception level with a trap control of another level set. -/
theorem witness_PrivilegeDecidesWhoMayAccess :
    [(at' .el0), tda (at' .el1), tda (at' .el2), tda (at' .el3)].all (fun i =>
      let s := machine el3A64 i 0#32
      decide (s.cfg.featAA32EL1 = true ∧ s.control = .program)) = true ∧
    Names (.mcrA32 0b1110#4 14#4) 14 ∧ Runs (.mcrA32 0b1110#4 14#4) (at' .el0) ∧
    Runs (.mcrA32 0b1110#4 14#4) (tda (at' .el1)) ∧ Runs (.mcrA32 0b1110#4 14#4) (tda (at' .el2)) ∧
    Runs (.mcrA32 0b1110#4 14#4) (tda (at' .el3)) :=
  ⟨by decide, rfl, (always_runs _ _).2, (always_runs _ _).2, (always_runs _ _).2, (always_runs _ _).2⟩

/-- The lowest and the highest enable of the layout in force. -/
theorem witness_EnableBitsAreCopiedBothWays :
    let s := good 0#32 []
    let f := enableField "SU" 1 .undef (some .secure) 0x04
    let g := enableField "NSF" 31 .fiq (some .nonSecure) 0x1C
    f ∈ fields (layoutOf s.cfg) ∧ f.enable ≠ none ∧ g ∈ fields (layoutOf s.cfg) ∧ g.enable ≠ none ∧
      Names (.mcrA32 0b1110#4 13#4) 13 ∧ Runs (.mcrA32 0b1110#4 13#4) s.inputs ∧ AccessAllowed s.cfg s.inputs :=
  ⟨by decide, by decide, by decide, by decide, rfl, (always_runs _ _).2, good_allowed _ _⟩

/-- The lowest and the highest reserved bit, in both modes. -/
theorem witness_ReservedBitsFollowTheMode :
    (let s := machine { bare with haveEL3 := true } (at' .el3) 0#32
     0 < 32 ∧ (res0Mask (layoutOf s.cfg)).getLsbD 0 = true ∧ Names (.mcrT32 14#4) 14 ∧ Runs (.mcrT32 14#4) s.inputs ∧
      AccessAllowed s.cfg s.inputs ∧ s.cfg.res0Mode = .razWi) ∧
    (let s := machine { bare with res0Mode := .rwNoEffect } (at' .el3) 0#32
     31 < 32 ∧ (res0Mask (layoutOf s.cfg)).getLsbD 31 = true ∧ Names (.mcrT32 14#4) 14 ∧ Runs (.mcrT32 14#4) s.inputs ∧
      AccessAllowed s.cfg s.inputs ∧ s.cfg.res0Mode = .rwNoEffect) :=
  ⟨⟨by decide, by decide, ⟨rfl, by decide⟩, .inl rfl, And.intro rfl trivial, rfl⟩,
    ⟨by decide, by decide, ⟨rfl, by decide⟩, .inl rfl, And.intro rfl trivial, rfl⟩⟩

/-- Two reads with a synchronisation point between them, and two writes of one value from two registers. -/
theorem witness_AccessesAreIdempotent :
    (let s := good 9#32 [.agent .sync]
     Names (.mrcA32 0b1110#4 0#4) 0 ∧ Names (.mrcT32 14#4) 14 ∧ Runs (.mrcA32 0b1110#4 0#4) s.inputs ∧
      AccessAllowed s.cfg s.inputs ∧
      ∃ s1 s2, exec (.mrcA32 0b1110#4 0#4) s = .next s1 ∧ QuietRun s1 s2 ∧ s1.schedule ≠ s2.schedule ∧
        Runs (.mrcT32 14#4) s2.inputs ∧ AccessAllowed s2.cfg s2.inputs) ∧
    (let s := good 9#32 []
     Names (.mcrA32 0b1110#4 0#4) 0 ∧ Names (.mcrT32 14#4) 14 ∧ Runs (.mcrA32 0b1110#4 0#4) s.inputs ∧
      AccessAllowed s.cfg s.inputs ∧ Runs (.mcrT32 14#4) s.inputs ∧ s.reg 14 = s.reg 0) :=
  ⟨⟨rfl, ⟨rfl, by decide⟩, (always_runs _ 0#4).1, good_allowed _ _,
      _, _, rfl, .step (fun h => h) rfl (.refl _), by decide, .inl rfl, And.intro rfl trivial⟩,
    ⟨rfl, ⟨rfl, by decide⟩, (always_runs _ _).2, good_allowed _ _, .inl rfl, by decide⟩⟩

/-- An MCR, a run after it that writes nothing and the state in which the MRC then reads; and two MCRs in a row of
values that differ. -/
theorem witness_ReadReturnsTheLastWrite :
    (let s := good 5#32 [.agent .sync]
     dirOf (.mcrA32 0b1110#4 0#4) = .write ∧ Names (.mcrA32 0b1110#4 0#4) 0 ∧ Names (.mrcT32 14#4) 14 ∧
      dirOf (.mrcT32 14#4) = .read ∧ Runs (.mcrA32 0b1110#4 0#4) s.inputs ∧ AccessAllowed s.cfg s.inputs ∧
      ∃ s1 s2, exec (.mcrA32 0b1110#4 0#4) s = .next s1 ∧ QuietRun s1 s2 ∧ s1.schedule ≠ s2.schedule ∧
        Runs (.mrcT32 14#4) s2.inputs ∧ AccessAllowed s2.cfg s2.inputs) ∧
    (let s := (good 2#32 []).setReg 14 4#32
     dirOf (.mcrA32 0b1110#4 0#4) = .write ∧ Names (.mcrA32 0b1110#4 0#4) 0 ∧ Names (.mcrT32 14#4) 14 ∧
      dirOf (.mcrT32 14#4) = .write ∧ Runs (.mcrA32 0b1110#4 0#4) s.inputs ∧ AccessAllowed s.cfg s.inputs ∧
      Runs (.mcrT32 14#4) s.inputs ∧ storedOfWrite s.cfg (s.reg 0) ≠ storedOfWrite s.cfg (s.reg 14)) :=
  ⟨⟨rfl, rfl, ⟨rfl, by decide⟩, rfl, (always_runs _ _).2, good_allowed _ _,
      _, _, rfl, .step (fun h => h) rfl (.refl _), by decide, .inl rfl, And.intro rfl trivial⟩,
    ⟨rfl, rfl, ⟨rfl, by decide⟩, rfl, (always_runs _ _).2, And.intro rfl trivial, .inl rfl, by decide⟩⟩

theorem witness_AliasIsTheSameStorage :
    ((good 0#32 [.agent .aliasRead]).cfg.featAA32EL1 = true ∧
      (good 0#32 [.agent .aliasRead]).schedule = .agent .aliasRead :: []) ∧
    ((good 0#32 [.agent (.aliasWrite 3#32)]).schedule = .agent (.aliasWrite 3#32) :: [] ∧
      Names (.mrcA32 0b1110#4 14#4) 14 ∧ RunsA32 0b1110#4 (good 0#32 [.agent (.aliasWrite 3#32)]).inputs ∧
      AccessAllowed (good 0#32 []).cfg (good 0#32 []).inputs) ∧
    ((absent [.agent .aliasRead]).cfg.featAA32EL1 = false ∧
      (absent [.agent .aliasRead]).schedule = .agent .aliasRead :: []) :=
  ⟨⟨rfl, rfl⟩, ⟨rfl, rfl, (always_runs _ 0#4).1, good_allowed _ _⟩, rfl, rfl⟩

theorem witness_ResetLeavesTheDraw :
    (enableMask (layoutOf bare)).getLsbD 1 = true ∧ (enableMask (layoutOf Config.chosen)).getLsbD 31 = true ∧
    (res0Mask (layoutOf bare)).getLsbD 31 = true ∧ (res0Mask (layoutOf bare)).getLsbD 0 = true ∧
    bare.res0Mode = .razWi ∧ ({ bare with res0Mode := .rwNoEffect } : Config).res0Mode = .rwNoEffect := by decide

theorem witness_ResetEventDrawsTheRegister :
    (good 0#32 [.agent (.reset 5#32)]).schedule = .agent (.reset 5#32) :: [] ∧
    (good 0#32 [.agent (.reset 5#32)]).cfg.featAA32EL1 = true ∧
    (good 0#32 [.agent (.reset 5#32)]).cfg.res0Mode = .razWi ∧
    (absent [.agent (.reset 5#32)]).schedule = .agent (.reset 5#32) :: [] ∧
    (absent [.agent (.reset 5#32)]).cfg.featAA32EL1 = false := by decide

theorem witness_EnablePositionsFollowTheOffsets :
    enableField "U" 1 .undef none 0x04 ∈ fields .noEL3 ∧ (enableField "U" 1 .undef none 0x04).enable.isSome = true ∧
    enableField "MF" 15 .fiq (some .monitor) 0x1C ∈ fields .el3A32 := by decide

/-- Two values that differ in every reserved bit and in nothing else. -/
theorem witness_ReservedBitsEnableNothing :
    (0x21FF2321#32 : Word) &&& enableMask .el3A32 = 0#32 &&& enableMask .el3A32 ∧ (0x21FF2321#32 : Word) ≠ 0#32 := by
  decide

theorem witness_SynchronisationClosesTheWindow :
    (good 0#32 [.agent .sync]).schedule = .agent .sync :: [] ∧ dirOf (.mcrT32 14#4) = .write ∧ Names (.mcrT32 14#4) 14 ∧
    Runs (.mcrT32 14#4) (good 0#32 [.agent .sync]).inputs ∧
    AccessAllowed (good 0#32 [.agent .sync]).cfg (good 0#32 [.agent .sync]).inputs :=
  ⟨rfl, rfl, ⟨rfl, by decide⟩, .inl rfl, good_allowed _ _⟩

theorem witness_CatchFollowsTheWrittenBit :
    dirOf (.mcrA32 0b1110#4 0#4) = .write ∧ Names (.mcrA32 0b1110#4 0#4) 0 ∧
    Runs (.mcrA32 0b1110#4 0#4) (good 0#32 [.agent .sync]).inputs ∧
    AccessAllowed (good 0#32 [.agent .sync]).cfg (good 0#32 [.agent .sync]).inputs ∧
    (good 0#32 [.agent .sync]).schedule = .agent .sync :: [] ∧
    (good 0#32 [.agent .sync]).reg 0 &&& enableMask (layoutOf (good 0#32 [.agent .sync]).cfg) = 0#32 :=
  ⟨rfl, rfl, (always_runs _ _).2, good_allowed _ _, rfl, by decide⟩

/-- A state with a longer history, code at both ends of memory and a write to make. -/
theorem witness_EveryStepKeepsTheInvariant :
    State.Inv { good 0#32 [.agent (.aliasWrite 3#32)] with
      history := [0x58#32, 0x10#32], mem := [(0, 1#8), (4294967295, 2#8)] } where
  reserved_stored := fun _ => by decide
  reserved_history := fun v hv _ => by
    rcases List.mem_cons.1 hv with rfl | hv
    · decide
    · rw [List.mem_singleton.1 hv]; decide
  stored_history := by decide
  history_nodup := by decide
  memory_wf := by decide
  handover_legal := fun h hh => by cases hh

/-- An MRC that the program runs is no write, and its step answers a next state. -/
theorem witness_OnlyWritersChangeTheRegister :
    nextIs (step (loaded .a32 0xEE10EE17#32 [])) (fun s => decide (s.stored = 0x58#32)) = true ∧
    ¬ WritesNow (loaded .a32 0xEE10EE17#32 []) := by
  refine ⟨by decide, ?_⟩
  rintro ⟨-, i, rest, t, hd, hw, -⟩
  have h : (loaded .a32 0xEE10EE17#32 []).decodeHere = .ok (.mrcA32 0b1110#4 14#4, []) := by decide
  rw [h] at hd
  cases hd
  cases hw

/-- Every move of an agent answers a next state, and so does the program's step above.
NoAccessTouchesMemory has the same hypothesis, and its clauses are met by a store and by the other moves. -/
theorem witness_ConfigurationIsFixedAndOnlySetInputsWritesInputs_NoAccessTouchesMemory :
    [Act.aliasRead, .aliasWrite 3#32, .reset 5#32, .sync, .setInputs (at' .el1), .setReg 14 1#32, .setPc 8#32,
      .storeByte 0xFFFFFFFF#32 1#8, .resume 8#32].all (fun a =>
      nextIs (step (good 0#32 [.agent a])) fun s => decide (s.schedule = [])) = true := by decide

/-- A register changed by an MRC, and one changed by the surrounding processor. -/
theorem witness_OnlyAnMrcOrTheSurroundingsWriteARegister :
    nextIs (step (loaded .a32 0xEE10EE17#32 [])) (fun s => decide (s.reg 14 ≠ (loaded .a32 0xEE10EE17#32 []).reg 14)) =
      true ∧
    nextIs (step (good 0#32 [.agent (.setReg 0 1#32)])) (fun s => decide (s.reg 0 ≠ (good 0#32 []).reg 0)) = true := by
  decide

/-- Steps that hand control over, one of an access that is not allowed and one of a condition that fails, the first at an
empty schedule and the second at the program's own move; a state in which control is handed over with each schedule of
the second part; and there a move other than `resume` that answers a next state. -/
theorem witness_ControlLeavesOnlyByATrappedAccess :
    nextIs (step { loaded .a32 0xEE10EE17#32 [] with inputs := at' .el0 })
      (fun s => decide (s.control = .handedOver ⟨.undefined, .read, 14, dbgvcrLoc⟩ ∧ s.schedule = [])) = true ∧
    nextIs (step { loaded .a32 0x0E10EE17#32 [.instruction] with inputs := { at' .el3 with condAnswer := .fails } })
      (fun s => decide (s.control = .handedOver ⟨.conditionFailed, .read, 14, dbgvcrLoc⟩)) = true ∧
    (loaded .a32 0xEE10EE17#32 []).control = .program ∧
    [[], [Move.instruction], [.agent (.resume 8#32)]].all (fun ms =>
      let s := (good 0#32 ms).handOver .undefined .write 0
      decide (s.control = .handedOver ⟨.undefined, .write, 0, dbgvcrLoc⟩ ∧ s.schedule = ms)) = true ∧
    nextIs (step ((good 0#32 [.agent (.reset 5#32)]).handOver .undefined .write 0))
      (fun s => decide (s.control = .handedOver ⟨.undefined, .write, 0, dbgvcrLoc⟩)) = true := by decide

/-- An MRC and an MCR that the checks turn away, each with a value that the transfer would have changed. -/
theorem witness_NoPartialEffect :
    let s := machine bare (at' .el0) 2#32
    accessCheck s.cfg s.inputs ≠ .access ∧ s.reg 14 ≠ s.stored ∧
    nextIs (exec (.mrcA32 0b1110#4 14#4) s) (fun s => decide (s.reg 14 = 2#32)) = true ∧
    nextIs (exec (.mcrT32 14#4) s) (fun s => decide (s.stored = 0x58#32)) = true := by decide

end Sys2Proof.Tests
end

/-! ### When the checks give the access, and what an instruction then does -/

namespace Sys2Proof.Machine

/-- The part of the chain that EL1 and EL2 share gives the access unless EL3 traps it (R101, steps 6a to 7, 9a to 10). -/
theorem checkEL3Trap_eq_access_iff {c : Config} {i : Inputs} : checkEL3Trap c i = .access ↔ ¬ El3Traps c i := by
  rw [← e3t_iff]
  unfold checkEL3Trap
  split
  · next htrap => cases i.sddUndef <;> simp [htrap]
  · next htrap => simp [htrap]

/-- The chain gives the access at EL2 unless EL3 traps it: step 8 is a trap of EL3 too. -/
theorem accessCheck_el2_eq_access_iff {c : Config} {i : Inputs} (hf : c.featAA32EL1 = true) (hel : i.el = .el2) :
    accessCheck c i = .access ↔ ¬ El3Traps c i := by
  simp only [accessCheck, hf, hel]
  split
  · contradiction
  · split
    · next h8 => simp [(e3t_iff c i).1 (Bool.and_eq_true_iff.1 h8).1]
    · exact checkEL3Trap_eq_access_iff

/-- The chain gives the access at EL1 unless EL3 or EL2 traps it: steps 3 and 6 are EL3's, 4 and 5 are EL2's. -/
theorem accessCheck_el1_eq_access_iff {c : Config} {i : Inputs} (hf : c.featAA32EL1 = true) (hel : i.el = .el1) :
    accessCheck c i = .access ↔ ¬ El3Traps c i ∧ ¬ El2Traps64 c i ∧ ¬ El2Traps32 c i := by
  simp only [accessCheck, hf, hel]
  split
  · contradiction
  · split
    · next h3 => simp [(e3t_iff c i).1 (Bool.and_eq_true_iff.1 h3).1]
    · split
      · next h4 => simp [(e2t64_iff c i).1 h4]
      · next h4 =>
        split
        · next h5 => simp [(e2t32_iff c i).1 h5]
        · next h5 => simp [checkEL3Trap_eq_access_iff, ← e2t64_iff, ← e2t32_iff, h4, h5]

/-- The chain of R101 gives the access exactly where R112 and R140 allow it. -/
theorem accessCheck_eq_access_iff {c : Config} {i : Inputs} : accessCheck c i = .access ↔ AccessAllowed c i := by
  unfold AccessAllowed
  cases hf : c.featAA32EL1 with
  | false => simp [accessCheck, hf]
  | true =>
    cases hel : i.el with
    | el0 => simp [accessCheck, hf, hel]
    | el1 => simp [accessCheck_el1_eq_access_iff hf hel]
    | el2 => simp [accessCheck_el2_eq_access_iff hf hel]
    | el3 => simp [accessCheck, hf, hel]

/-- The two effects an instruction can have: the transfer when its condition passes and its access is allowed, and
otherwise a legal handover that tells a failed condition from an access that is turned away. -/
theorem exec_next_transfer_or_handOver {i : Instr} {s s' : State} (h : exec i s = .next s') :
    ∃ t, Names i t ∧
      (Runs i s.inputs ∧ AccessAllowed s.cfg s.inputs ∧ s' = transfer (dirOf i) t s ∨
        ∃ reason, s' = s.handOver reason (dirOf i) t ∧ Handover.Legal s.cfg ⟨reason, dirOf i, t, dbgvcrLoc⟩ ∧
          ¬ (Runs i s.inputs ∧ AccessAllowed s.cfg s.inputs) ∧ (reason = .conditionFailed ↔ ¬ Runs i s.inputs)) := by
  obtain ⟨t, hnames, ⟨hfails, rfl⟩ | ⟨hruns, rfl⟩⟩ := exec_next h
  · exact ⟨t, hnames, .inr ⟨.conditionFailed, rfl, ⟨rfl, trivial⟩, fun hr => hfails hr.1, by simp [hfails]⟩⟩
  · refine ⟨t, hnames, ?_⟩
    obtain ⟨haccess, heq⟩ | ⟨reason, heq, hlegal, hdenied, hreason⟩ := checkedAccess_cases (dirOf i) t s
    · exact .inl ⟨hruns, accessCheck_eq_access_iff.1 haccess, heq⟩
    · exact .inr ⟨reason, heq, hlegal, fun ha => hdenied (accessCheck_eq_access_iff.2 ha.2), by simp [hreason, hruns]⟩

/-- A transfer leaves control where it is. -/
@[simp] theorem transfer_control (dir : Direction) (t : RegIx) (s : State) :
    (transfer dir t s).control = s.control := by
  cases dir <;> rfl

/-! ### Who writes the register -/

/-- The program's step is a writing one when it runs an MCR that is admitted, whose condition passes and whose access is
allowed. -/
theorem ProgramRuns.writesNow {s : State} {i : Instr} {t : RegIx} (hprog : ProgramRuns s i) (hdir : dirOf i = .write)
    (hnames : Names i t) (hruns : Runs i s.inputs) (hallowed : AccessAllowed s.cfg s.inputs) : WritesNow s := by
  obtain ⟨hcontrol, hsched, rest, hdecode⟩ := hprog
  have hmcr : s.control = .program ∧ ∃ i rest t, s.decodeHere = .ok (i, rest) ∧ dirOf i = .write ∧ Names i t ∧
      Runs i s.inputs ∧ AccessAllowed s.cfg s.inputs :=
    ⟨hcontrol, i, rest, t, hdecode, hdir, hnames, hruns, hallowed⟩
  obtain hnil | ⟨ms, hcons⟩ := hsched
  · simpa only [WritesNow, hnil] using hmcr
  · simpa only [WritesNow, hcons] using hmcr

/-- An instruction changes `stored` and its history only if it is an MCR that runs and is allowed. -/
theorem exec_next_register {i : Instr} {s s' : State} (h : exec i s = .next s') :
    (s'.stored = s.stored ∧ s'.history = s.history) ∨
      dirOf i = .write ∧ ∃ t, Names i t ∧ Runs i s.inputs ∧ AccessAllowed s.cfg s.inputs := by
  obtain ⟨t, hnames, ⟨hruns, hallowed, rfl⟩ | ⟨reason, rfl, -⟩⟩ := exec_next_transfer_or_handOver h
  · cases hdir : dirOf i with
    | read => exact .inl ⟨rfl, rfl⟩
    | write => exact .inr ⟨rfl, t, hnames, hruns, hallowed⟩
  · exact .inl ⟨rfl, rfl⟩

/-- A move of an agent other than a reset and a write through DBGVCR32_EL2 keeps `stored`, and its history unless it is a
synchronisation point. -/
theorem act_next_register {a : Act} {s s' : State} (h : act a s = .next s') :
    (∃ draw, a = .reset draw) ∨ (∃ v, a = .aliasWrite v) ∨
      s'.stored = s.stored ∧ (s'.history = s.history ∨ s'.history = [s.stored] ∧ a = .sync) := by
  replace h := act_next h
  cases a with
  | reset draw => exact .inl ⟨draw, rfl⟩
  | aliasWrite v => exact .inr (.inl ⟨v, rfl⟩)
  | sync => dsimp only at h; subst h; exact .inr (.inr ⟨rfl, .inr ⟨rfl, rfl⟩⟩)
  | aliasRead => obtain ⟨-, rfl⟩ := h; exact .inr (.inr ⟨rfl, .inl rfl⟩)
  | setInputs | setReg | setPc | storeByte | resume => dsimp only at h; subst h; exact .inr (.inr ⟨rfl, .inl rfl⟩)

/-- Settles O38, by who moves: the program changes the register only by an allowed MCR, an agent only by a reset or an
write through DBGVCR32_EL2. -/
theorem onlyWritersChangeTheRegister : Obligations.OnlyWritersChangeTheRegister := by
  intro s s' hstep hquiet
  obtain ⟨i, ms, hprog, hexec⟩ | ⟨a, ms, hsched, hact⟩ := step_next_mover hstep
  · obtain ⟨hstored, hhistory⟩ | ⟨hdir, t, hnames, hruns, hallowed⟩ := exec_next_register hexec
    · exact ⟨hstored, .inl hhistory⟩
    · exact absurd (hprog.writesNow hdir hnames hruns hallowed) hquiet
  · obtain ⟨draw, rfl⟩ | ⟨v, rfl⟩ | ⟨hstored, hhistory⟩ := act_next_register hact
    · exact absurd (by simp [WritesNow, hsched]) hquiet
    · exact absurd (by simp [WritesNow, hsched]) hquiet
    · exact ⟨hstored, hhistory.imp_right fun ⟨hone, hsync⟩ => ⟨hone, ms, hsync ▸ hsched⟩⟩

/-! ### How control leaves the program and returns -/

/-- Only the move `resume` of an agent changes who has control. -/
theorem act_next_control {a : Act} {s s' : State} (h : act a s = .next s') :
    s'.control = s.control ∨ ∃ pc, a = .resume pc ∧ s' = s.resume pc := by
  replace h := act_next h
  cases a with
  | reset draw => obtain ⟨-, rfl⟩ | ⟨-, rfl⟩ := h <;> exact .inl rfl
  | aliasRead | aliasWrite => obtain ⟨-, rfl⟩ := h; exact .inl rfl
  | sync | setInputs | setReg | setPc | storeByte => dsimp only at h; subst h; exact .inl rfl
  | resume pc => exact .inr ⟨pc, rfl, h⟩

/-- While control is handed over, the program's step is refused. -/
theorem runInstruction_of_handedOver {s : State} {h : Handover} (hcontrol : s.control = .handedOver h) :
    runInstruction s = .refused .surroundingHasControl := by
  simp only [runInstruction, hcontrol]

/-- The step that takes control from the program is the program's, of an access that fails its condition or is not
allowed, and what it leaves is that access's handover. -/
theorem step_next_handedOver {s s' : State} {h : Handover} (hstep : step s = .next s')
    (hbefore : s.control = .program) (hafter : s'.control = .handedOver h) :
    s'.pc = s.pc ∧ s'.stored = s.stored ∧ h.Legal s.cfg ∧
      ∃ i, ProgramRuns s i ∧ Names i h.rt ∧ h.dir = dirOf i ∧ ¬ (Runs i s.inputs ∧ AccessAllowed s.cfg s.inputs) ∧
        (h.reason = .conditionFailed ↔ ¬ Runs i s.inputs) := by
  obtain ⟨i, ms, hprog, hexec⟩ | ⟨a, ms, -, hact⟩ := step_next_mover hstep
  · obtain ⟨t, hnames, ⟨-, -, rfl⟩ | ⟨reason, rfl, hlegal, hdenied, hreason⟩⟩ := exec_next_transfer_or_handOver hexec
    · simp [hbefore] at hafter
    · cases hafter
      exact ⟨rfl, rfl, hlegal, i, hprog, hnames, rfl, hdenied, hreason⟩
  · obtain hkeep | ⟨pc, -, rfl⟩ := act_next_control hact
    · simp [hkeep, hbefore] at hafter
    · cases hafter

/-- While control is handed over, a step to a next state other than `resume` leaves it handed over as it is. -/
theorem step_keeps_handedOver {s s' : State} {h : Handover} (hcontrol : s.control = .handedOver h)
    (hstep : step s = .next s') (hother : ∀ pc ms, s.schedule ≠ .agent (.resume pc) :: ms) :
    s'.control = .handedOver h := by
  obtain ⟨i, ms, ⟨hprogram, -⟩, -⟩ | ⟨a, ms, hsched, hact⟩ := step_next_mover hstep
  · simp [hcontrol] at hprogram
  · obtain hkeep | ⟨pc, rfl, -⟩ := act_next_control hact
    · exact hkeep.trans hcontrol
    · exact absurd hsched (hother pc ms)

/-- Settles O42: the one way out of the program, and, while control is handed over, the refused step of the program, the
moves that keep it so and the move `resume`. -/
theorem controlLeavesOnlyByATrappedAccess : Obligations.ControlLeavesOnlyByATrappedAccess := by
  refine ⟨fun _ _ _ => step_next_handedOver, fun s h ms hcontrol => ⟨?_, fun _ => step_keeps_handedOver hcontrol, ?_⟩⟩
  · rintro (hnil | hcons)
    · simpa only [step, hnil] using runInstruction_of_handedOver hcontrol
    · simpa only [step, hcons] using runInstruction_of_handedOver (s := s.setSchedule ms) hcontrol
  · intro pc hsched
    simp only [step, hsched]
    rfl

end Sys2Proof.Machine

/-! ### The fields of the layouts, and the bits that the reserved-bit behaviour filters -/

namespace Sys2Proof.Machine

/-- Every bit lies in exactly one field of a layout's table (R25 to R27). -/
theorem fields_cover_once (l : Layout) :
    ∀ b, b < 32 → ((fields l).filter fun f => decide (f.lo ≤ b ∧ b ≤ f.hi)).length = 1 := by
  cases l <;> decide

/-- ENABLE_MASK has its ones at the bits of the enable fields. -/
theorem getLsbD_enableMask_iff (l : Layout) :
    ∀ b, b < 32 → ((enableMask l).getLsbD b = true ↔ ∃ f ∈ fields l, f.lo ≤ b ∧ b ≤ f.hi ∧ f.enable.isSome = true) := by
  cases l <;> decide

/-- RES0_MASK has its ones at the bits of the reserved fields. -/
theorem getLsbD_res0Mask_iff (l : Layout) :
    ∀ b, b < 32 → ((res0Mask l).getLsbD b = true ↔ ∃ f ∈ fields l, f.lo ≤ b ∧ b ≤ f.hi ∧ f.enable = none) := by
  cases l <;> decide

/-- Settles O22: the values of the masks by evaluation, and what their bits are by the tables. -/
theorem masksMatchTheFieldTables : Obligations.MasksMatchTheFieldTables := by
  refine ⟨rfl, rfl, rfl, rfl, rfl, rfl, fun l =>
    ⟨fields_cover_once l, getLsbD_enableMask_iff l, getLsbD_res0Mask_iff l, ?_⟩⟩
  cases l <;> decide

/-- Settles O31: the law is read off each row of the three tables. -/
theorem enablePositionsFollowTheOffsets : Obligations.EnablePositionsFollowTheOffsets := by
  have hrows : ∀ l, ∀ f ∈ fields l, ∀ e ∈ f.enable,
      e.offset = vectorOffset e.exc ∧
      f.lo = (match e.ctx with
          | some ctx => groupBase ctx
          | none => 0) + e.offset / 4 ∧
      f.lo % 8 ∈ [1, 2, 3, 4, 6, 7] := by
    intro l
    cases l <;> decide
  exact fun l f e hf he => hrows l f hf e he

/-- An enable field is one bit, within the register. -/
theorem enable_field_bit (l : Layout) : ∀ f ∈ fields l, f.enable ≠ none → f.lo = f.hi ∧ f.lo < 32 := by
  cases l <;> decide

/-- ENABLE_MASK has a 1 at the bit of an enable field. -/
theorem getLsbD_enableMask_of_field {l : Layout} {f : Field} (hf : f ∈ fields l) (he : f.enable ≠ none) :
    (enableMask l).getLsbD f.lo = true := by
  obtain ⟨hhi, hlt⟩ := enable_field_bit l f hf he
  exact (getLsbD_enableMask_iff l f.lo hlt).2 ⟨f, hf, le_rfl, hhi.le, Option.isSome_iff_ne_none.2 he⟩

/-- A bit is reserved exactly when it is a bit of the register that is no enable. -/
theorem getLsbD_res0Mask (l : Layout) (b : Nat) :
    (res0Mask l).getLsbD b = (decide (b < 32) && !(enableMask l).getLsbD b) :=
  BitVec.getLsbD_not

/-- R32: a write copies an enable bit, whatever the reserved-bit behaviour. -/
theorem getLsbD_storedOfWrite_enable {c : Config} {b : Nat} (hb : (enableMask (layoutOf c)).getLsbD b = true)
    (v : Word) : (storedOfWrite c v).getLsbD b = v.getLsbD b := by
  cases hm : c.res0Mode with
  | razWi => rw [storedOfWrite_razWi hm, BitVec.getLsbD_and, hb, Bool.and_true]
  | rwNoEffect => rw [storedOfWrite_rwNoEffect hm]

/-- R34: a write clears a hardwired reserved bit. -/
theorem getLsbD_storedOfWrite_reserved {c : Config} {b : Nat} (hb : (res0Mask (layoutOf c)).getLsbD b = true)
    (hm : c.res0Mode = .razWi) (v : Word) : (storedOfWrite c v).getLsbD b = false := by
  rw [getLsbD_res0Mask] at hb
  have hclear : (enableMask (layoutOf c)).getLsbD b = false := by simpa using (Bool.and_eq_true_iff.1 hb).2
  rw [storedOfWrite_razWi hm, BitVec.getLsbD_and, hclear, Bool.and_false]

/-- R36 and R37 are one filter: what a read returns of `stored` is what a write of that value would leave. -/
theorem readOfStored_eq_storedOfWrite (c : Config) (v : Word) : readOfStored c v = storedOfWrite c v := rfl

/-- Settles O28: right after reset `stored` is the draw as a write of it would leave it. -/
theorem resetLeavesTheDraw : Obligations.ResetLeavesTheDraw := by
  intro c d b _
  have hstored : (State.resetOf c d).stored = storedOfWrite c d := rfl
  rw [hstored]
  exact ⟨fun henable => getLsbD_storedOfWrite_enable henable d,
    fun hreserved hm => getLsbD_storedOfWrite_reserved hreserved hm d,
    fun _ hm => by rw [storedOfWrite_rwNoEffect hm]⟩

/-! ### The access that is performed -/

/-- An allowed access of an instruction that names an admitted register and whose condition passes is the transfer. -/
theorem exec_of_allowed {i : Instr} {t : RegIx} {s : State} (hnames : Names i t) (hruns : Runs i s.inputs)
    (hallowed : AccessAllowed s.cfg s.inputs) : exec i s = .next (transfer (dirOf i) t s) := by
  rw [exec_runs hnames hruns, checkedAccess, accessCheck_eq_access_iff.2 hallowed]

/-- A T32 operand other than 13 names a register that R90 (b) does not refuse. -/
theorem regIx_ne_13 {rt : BitVec 4} {t : RegIx} (hrt : rt.toNat = t.val) (h13 : rt ≠ 13#4) : t.val ≠ 13 :=
  fun ht => h13 (BitVec.eq_of_toNat_eq (hrt.trans ht))

/-- What a read transfer leaves in the register it names. -/
theorem reg_transfer_read (t : RegIx) (s : State) : (transfer .read t s).reg t = readOfStored s.cfg s.stored :=
  reg_setReg_same s t s.dbgvcr

/-- What a read transfer leaves in every other register. -/
theorem reg_transfer_read_ne {t r : RegIx} (s : State) (hr : r ≠ t) : (transfer .read t s).reg r = s.reg r :=
  reg_setReg_ne s t r s.dbgvcr hr

/-- What a write transfer leaves in `stored`. -/
theorem stored_transfer_write (t : RegIx) (s : State) :
    (transfer .write t s).stored = storedOfWrite s.cfg (s.reg t) := rfl

/-- A transfer leaves the surroundings as they are. -/
theorem transfer_sameSurroundings (dir : Direction) (t : RegIx) (s : State) :
    SameSurroundings s (transfer dir t s) := by
  cases dir <;> exact ⟨rfl, rfl, fun _ => rfl, rfl, rfl⟩

/-- A read transfer is a successful MRC, frame and all. -/
theorem transfer_readDone (t : RegIx) (s : State) : ReadDone t s (transfer .read t s) :=
  ⟨fun hm => by rw [reg_transfer_read, readOfStored_rwNoEffect hm],
    fun hm => by rw [reg_transfer_read, readOfStored_razWi hm],
    fun _ => reg_transfer_read_ne s, rfl, rfl, rfl, rfl, transfer_sameSurroundings .read t s⟩

/-- A write transfer is a successful MCR, frame and all. -/
theorem transfer_writeDone (t : RegIx) (s : State) : WriteDone t s (transfer .write t s) :=
  ⟨fun hm => by rw [stored_transfer_write, storedOfWrite_rwNoEffect hm],
    fun hm => by rw [stored_transfer_write, storedOfWrite_razWi hm],
    fun _ => mem_addValue, fun _ => rfl, rfl, rfl, transfer_sameSurroundings .write t s⟩

/-- Settles O13: in both sets an allowed MRC is the read transfer. -/
theorem mrcReadsTheRegister : Obligations.MrcReadsTheRegister := by
  intro s cond rt t hrt hallowed
  have hcompletes (i : Instr) (hdir : dirOf i = .read) (hnames : Names i t) (hruns : Runs i s.inputs) :
      ∃ s', exec i s = .next s' ∧ ReadDone t s s' ∧ (ReservedClear s.cfg s.stored → s'.reg t = s.stored) :=
    ⟨transfer .read t s, hdir ▸ exec_of_allowed hnames hruns hallowed, transfer_readDone t s,
      fun hclear => (reg_transfer_read t s).trans (readOfStored_eq_self hclear)⟩
  exact ⟨hcompletes (.mrcA32 cond rt) rfl hrt,
    fun h13 => hcompletes (.mrcT32 rt) rfl ⟨hrt, regIx_ne_13 hrt h13⟩⟩

/-- Settles O14: in both sets an allowed MCR is the write transfer. -/
theorem mcrWritesTheRegister : Obligations.McrWritesTheRegister := by
  intro s cond rt t hrt hallowed
  have hcompletes (i : Instr) (hdir : dirOf i = .write) (hnames : Names i t) (hruns : Runs i s.inputs) :
      ∃ s', exec i s = .next s' ∧ WriteDone t s s' :=
    ⟨transfer .write t s, hdir ▸ exec_of_allowed hnames hruns hallowed, transfer_writeDone t s⟩
  exact ⟨hcompletes (.mcrA32 cond rt) rfl hrt,
    fun h13 => hcompletes (.mcrT32 rt) rfl ⟨hrt, regIx_ne_13 hrt h13⟩⟩

/-- Settles O23: the transfer filters the value, and the filter copies enable bits. -/
theorem enableBitsAreCopiedBothWays : Obligations.EnableBitsAreCopiedBothWays := by
  intro s i t f hf henable hnames hruns hallowed
  have hmask : (enableMask (layoutOf s.cfg)).getLsbD f.lo = true := getLsbD_enableMask_of_field hf henable
  refine ⟨_, exec_of_allowed hnames hruns hallowed, fun hdir => ?_, fun hdir => ?_⟩
  · rw [hdir, stored_transfer_write, getLsbD_storedOfWrite_enable hmask]
  · rw [hdir, reg_transfer_read, readOfStored_eq_storedOfWrite, getLsbD_storedOfWrite_enable hmask]

/-- Settles O24: the transfer filters the value, and the filter clears reserved bits exactly under RAZ_WI. -/
theorem reservedBitsFollowTheMode : Obligations.ReservedBitsFollowTheMode := by
  intro s i t b _ hmask hnames hruns hallowed
  refine ⟨_, exec_of_allowed hnames hruns hallowed,
    fun hm => ⟨fun hdir => ?_, fun hdir => ?_⟩, fun hm => ⟨fun hdir => ?_, fun hdir => ?_⟩⟩
  · rw [hdir, stored_transfer_write, getLsbD_storedOfWrite_reserved hmask hm]
  · rw [hdir, reg_transfer_read, readOfStored_eq_storedOfWrite, getLsbD_storedOfWrite_reserved hmask hm]
  · rw [hdir, stored_transfer_write, storedOfWrite_rwNoEffect hm]
  · rw [hdir, reg_transfer_read, readOfStored_rwNoEffect hm]

/-! ### Accesses through DBGVCR32_EL2 -/

/-- A scheduled move of an agent is made on the rest of the schedule. -/
theorem step_of_agent {s : State} {a : Act} {ms : List Move} (hsched : s.schedule = .agent a :: ms) :
    step s = act a (s.setSchedule ms) := by
  rw [step, hsched]

/-- Settles O27: a move through DBGVCR32_EL2 uses the operations of MRC and MCR on the same storage, and an MRC after such
a write reads it as it was filtered. -/
theorem aliasIsTheSameStorage : Obligations.AliasIsTheSameStorage := by
  intro s v ms
  refine ⟨fun hpresent hsched => ?_, fun hpresent hsched => ?_, fun habsent hsched => ?_⟩
  · rw [step_of_agent hsched]
    exact if_pos hpresent
  · refine ⟨(s.setSchedule ms).writeDbgvcr v, ?_, rfl, fun _ => mem_addValue, rfl, ?_⟩
    · rw [step_of_agent hsched]
      exact if_pos hpresent
    · intro i t hdir hnames hruns hallowed
      refine ⟨_, exec_of_allowed hnames hruns hallowed, ?_⟩
      rw [hdir, reg_transfer_read]
      exact readOfStored_storedOfWrite s.cfg v
  · have hrefused : ¬ (s.setSchedule ms).cfg.featAA32EL1 = true := by simp [habsent]
    obtain hread | hwrite := hsched
    · rw [step_of_agent hread]
      exact if_neg hrefused
    · rw [step_of_agent hwrite]
      exact if_neg hrefused

/-! ### The invariant -/

/-- The invariant speaks of the configuration, the register with its history, the memory and the control, and of nothing
else. -/
theorem State.Inv.of_same {s s' : State} (hinv : s.Inv) (hcfg : s'.cfg = s.cfg) (hstored : s'.stored = s.stored)
    (hhistory : s'.history = s.history) (hmem : s'.mem = s.mem) (hcontrol : s'.control = s.control) : s'.Inv where
  reserved_stored := hcfg ▸ hstored ▸ hinv.reserved_stored
  reserved_history := hcfg ▸ hhistory ▸ hinv.reserved_history
  stored_history := hstored ▸ hhistory ▸ hinv.stored_history
  history_nodup := hhistory ▸ hinv.history_nodup
  memory_wf := hmem ▸ hinv.memory_wf
  handover_legal := hcfg ▸ hcontrol ▸ hinv.handover_legal

/-- A filtered value written to the register keeps the invariant: R37's filter clears what R35 wants clear. -/
theorem State.Inv.writeDbgvcr {s : State} (hinv : s.Inv) (v : Word) : (s.writeDbgvcr v).Inv where
  reserved_stored := reservedClear_storedOfWrite s.cfg v
  reserved_history w hw := by
    obtain rfl | hold := mem_addValue.1 hw
    · exact reservedClear_storedOfWrite s.cfg v
    · exact hinv.reserved_history w hold
  stored_history := mem_addValue.2 (.inl rfl)
  history_nodup := addValue_nodup hinv.history_nodup
  memory_wf := hinv.memory_wf
  handover_legal := hinv.handover_legal

/-- A synchronisation point keeps the invariant: the one value it leaves in the history is `stored`. -/
theorem State.Inv.sync {s : State} (hinv : s.Inv) : s.sync.Inv where
  reserved_stored := hinv.reserved_stored
  reserved_history _ hv := List.mem_singleton.1 hv ▸ hinv.reserved_stored
  stored_history := List.mem_singleton_self _
  history_nodup := List.nodup_singleton _
  memory_wf := hinv.memory_wf
  handover_legal := hinv.handover_legal

/-- A stored byte keeps the invariant, for a 32-bit address lies within the address space. -/
theorem State.Inv.storeByte {s : State} (hinv : s.Inv) (a : Word) (b : Byte) : (s.storeByte a b).Inv :=
  { hinv with memory_wf := write_wf hinv.memory_wf a.isLt }

/-- A legal handover keeps the invariant. -/
theorem State.Inv.handOver {s : State} (hinv : s.Inv) {reason : Reason} {dir : Direction} {t : RegIx}
    (hlegal : Handover.Legal s.cfg ⟨reason, dir, t, dbgvcrLoc⟩) : (s.handOver reason dir t).Inv :=
  { hinv with handover_legal := by rintro _ ⟨⟩; exact hlegal }

/-- The return to the program keeps the invariant: nothing is handed over after it. -/
theorem State.Inv.resume {s : State} (hinv : s.Inv) (pc : Word) : (s.resume pc).Inv :=
  { hinv with handover_legal := nofun }

/-- Both transfers keep the invariant. -/
theorem State.Inv.transfer {s : State} (hinv : s.Inv) (dir : Direction) (t : RegIx) : (transfer dir t s).Inv := by
  cases dir with
  | read => exact hinv.of_same rfl rfl rfl rfl rfl
  | write => exact (hinv.writeDbgvcr (s.reg t)).of_same rfl rfl rfl rfl rfl

/-- Every instruction keeps the invariant. -/
theorem exec_keeps_inv {i : Instr} {s s' : State} (hinv : s.Inv) (h : exec i s = .next s') : s'.Inv := by
  obtain ⟨t, -, ⟨-, -, rfl⟩ | ⟨reason, rfl, hlegal, -⟩⟩ := exec_next_transfer_or_handOver h
  · exact hinv.transfer (dirOf i) t
  · exact hinv.handOver hlegal

/-- Every move of an agent keeps the invariant. -/
theorem act_keeps_inv {a : Act} {s s' : State} (hinv : s.Inv) (h : act a s = .next s') : s'.Inv := by
  replace h := act_next h
  cases a with
  | reset draw =>
    obtain ⟨-, rfl⟩ | ⟨-, rfl⟩ := h
    · exact hinv.writeDbgvcr draw
    · exact hinv
  | aliasRead => obtain ⟨-, rfl⟩ := h; exact hinv.of_same rfl rfl rfl rfl rfl
  | aliasWrite v => obtain ⟨-, rfl⟩ := h; exact hinv.writeDbgvcr v
  | sync => dsimp only at h; subst h; exact hinv.sync
  | storeByte addr b => dsimp only at h; subst h; exact hinv.storeByte addr b
  | resume pc => dsimp only at h; subst h; exact hinv.resume pc
  | setInputs | setReg | setPc => dsimp only at h; subst h; exact hinv.of_same rfl rfl rfl rfl rfl

/-- Settles O36, by who moves: an instruction and an agent's move each keep the invariant, and taking the move from the
schedule touches nothing that it speaks of. -/
theorem everyStepKeepsTheInvariant : Obligations.EveryStepKeepsTheInvariant := by
  intro s s' hinv hstep
  have hscheduled (ms : List Move) : (s.setSchedule ms).Inv := hinv.of_same rfl rfl rfl rfl rfl
  obtain ⟨i, ms, -, hexec⟩ | ⟨a, ms, -, hact⟩ := step_next_mover hstep
  · exact exec_keeps_inv (hscheduled ms) hexec
  · exact act_keeps_inv (hscheduled ms) hact

/-- The machine right after reset has the invariant: its one value is filtered, its memory empty, and the program has
control. -/
theorem inv_resetOf (c : Config) (draw : Word) : (State.resetOf c draw).Inv where
  reserved_stored := reservedClear_storedOfWrite c draw
  reserved_history _ hv := List.mem_singleton.1 hv ▸ reservedClear_storedOfWrite c draw
  stored_history := List.mem_singleton_self _
  history_nodup := List.nodup_singleton _
  memory_wf := rfl
  handover_legal := nofun

/-- Settles O37: `State.reset` is the machine right after reset of one configuration and one draw. -/
theorem resetHasTheInvariant : Obligations.ResetHasTheInvariant :=
  ⟨inv_resetOf Config.chosen Config.resetValue, inv_resetOf⟩

/-! ### What a step leaves of the configuration, the inputs and the general registers -/

/-- No instruction changes the surroundings. -/
theorem exec_next_sameSurroundings {i : Instr} {s s' : State} (h : exec i s = .next s') : SameSurroundings s s' := by
  obtain ⟨t, -, ⟨-, -, rfl⟩ | ⟨reason, rfl, -⟩⟩ := exec_next_transfer_or_handOver h
  · exact transfer_sameSurroundings (dirOf i) t s
  · exact ⟨rfl, rfl, fun _ => rfl, rfl, rfl⟩

/-- No move of an agent changes the configuration, and only `setInputs` changes the inputs. -/
theorem act_next_cfg_inputs {a : Act} {s s' : State} (h : act a s = .next s') :
    s'.cfg = s.cfg ∧ (s'.inputs = s.inputs ∨ a = .setInputs s'.inputs) := by
  replace h := act_next h
  cases a with
  | reset draw => obtain ⟨-, rfl⟩ | ⟨-, rfl⟩ := h <;> exact ⟨rfl, .inl rfl⟩
  | aliasRead | aliasWrite => obtain ⟨-, rfl⟩ := h; exact ⟨rfl, .inl rfl⟩
  | sync | setReg | setPc | storeByte | resume => dsimp only at h; subst h; exact ⟨rfl, .inl rfl⟩
  | setInputs inputs => dsimp only at h; subst h; exact ⟨rfl, .inr rfl⟩

/-- Settles O39, by who moves: an instruction keeps the surroundings, and an agent all of the configuration. -/
theorem configurationIsFixedAndOnlySetInputsWritesInputs :
    Obligations.ConfigurationIsFixedAndOnlySetInputsWritesInputs := by
  intro s s' hstep
  obtain ⟨i, ms, -, hexec⟩ | ⟨a, ms, hsched, hact⟩ := step_next_mover hstep
  · obtain ⟨hcfg, hinputs, -⟩ := exec_next_sameSurroundings hexec
    exact ⟨hcfg, congrArg layoutOf hcfg, .inl hinputs⟩
  · obtain ⟨hcfg, hinputs⟩ := act_next_cfg_inputs hact
    refine ⟨hcfg, congrArg layoutOf hcfg, hinputs.imp_right fun hset => ?_⟩
    exact ⟨s'.inputs, ms, hset ▸ hsched, rfl⟩

/-- An instruction changes a general register only if it is an MRC into it that runs and is allowed. -/
theorem exec_next_reg {i : Instr} {s s' : State} {r : RegIx} (h : exec i s = .next s') (hchanged : s'.reg r ≠ s.reg r) :
    dirOf i = .read ∧ Names i r ∧ Runs i s.inputs ∧ AccessAllowed s.cfg s.inputs ∧
      s'.reg r = readOfStored s.cfg s.stored := by
  obtain ⟨t, hnames, ⟨hruns, hallowed, rfl⟩ | ⟨reason, rfl, -⟩⟩ := exec_next_transfer_or_handOver h
  · cases hdir : dirOf i with
    | write => exact absurd (hdir ▸ rfl) hchanged
    | read =>
      rw [hdir] at hchanged
      obtain rfl : r = t := by_contra fun hne => hchanged (reg_setReg_ne s t r s.dbgvcr hne)
      exact ⟨rfl, hnames, hruns, hallowed, reg_setReg_same s r s.dbgvcr⟩
  · exact absurd rfl hchanged

/-- An agent changes a general register only by the move `setReg` of it. -/
theorem act_next_reg {a : Act} {s s' : State} {r : RegIx} (h : act a s = .next s') (hchanged : s'.reg r ≠ s.reg r) :
    a = .setReg r (s'.reg r) := by
  replace h := act_next h
  cases a with
  | reset draw => obtain ⟨-, rfl⟩ | ⟨-, rfl⟩ := h <;> exact absurd rfl hchanged
  | aliasRead | aliasWrite => obtain ⟨-, rfl⟩ := h; exact absurd rfl hchanged
  | sync | setInputs | setPc | storeByte | resume => dsimp only at h; subst h; exact absurd rfl hchanged
  | setReg q v =>
    dsimp only at h
    subst h
    obtain rfl : r = q := by_contra fun hne => hchanged (reg_setReg_ne s q r v hne)
    rw [reg_setReg_same]

/-- Settles O40, by who moves. -/
theorem onlyAnMrcOrTheSurroundingsWriteARegister : Obligations.OnlyAnMrcOrTheSurroundingsWriteARegister := by
  intro s s' r hstep hchanged
  obtain ⟨i, ms, hprog, hexec⟩ | ⟨a, ms, hsched, hact⟩ := step_next_mover hstep
  · exact .inr ⟨i, hprog, exec_next_reg (s := s.setSchedule ms) hexec hchanged⟩
  · exact .inl ⟨s'.reg r, ms, act_next_reg hact hchanged ▸ hsched, rfl⟩

/-! ### The register that is absent -/

/-- The same state with other contents of the register: other values of the two fields that R14 gives the spec. -/
def State.withRegister (v : Word) (h : List Word) (s : State) : State := { s with stored := v, history := h }

/-- An outcome with its next state, if it has one, replaced by `f` of it. -/
def mapNext (f : State → State) : Host.Outcome State Fault Refusal → Host.Outcome State Fault Refusal
  | .next s => .next (f s)
  | .fault r => .fault r
  | .refused r => .refused r

/-- The second outcome is the first but for the contents of the register: the same fault, the same refusal, or a next
state that differs in `stored` and the history at most. -/
def SameButRegister (o o' : Host.Outcome State Fault Refusal) : Prop :=
  match o with
  | .next s => ∃ v h, o' = .next (s.withRegister v h)
  | .fault r => o' = .fault r
  | .refused r => o' = .refused r

theorem sameButRegister_mapNext (v : Word) (h : List Word) (o : Host.Outcome State Fault Refusal) :
    SameButRegister o (mapNext (State.withRegister v h) o) := by
  cases o with
  | next s => exact ⟨v, h, rfl⟩
  | fault r => rfl
  | refused r => rfl

/-- R21: an access of an absent register is Undefined, whatever the Exception level and the trap controls are. -/
theorem checkedAccess_absent {s : State} (habsent : s.cfg.featAA32EL1 = false) (dir : Direction) (t : RegIx) :
    checkedAccess dir t s = s.handOver .undefined dir t := by
  have hcheck : accessCheck s.cfg s.inputs = .undefined := by simp [accessCheck, habsent]
  rw [checkedAccess, hcheck]

/-- What handing over leaves, frame and all. -/
theorem handOver_handedOver (reason : Reason) (dir : Direction) (t : RegIx) (s : State) :
    HandedOver reason dir t s (s.handOver reason dir t) :=
  ⟨rfl, fun _ => rfl, rfl, rfl, rfl, rfl, rfl, fun _ => rfl, rfl, rfl⟩

section absent

variable {s : State} (habsent : s.cfg.featAA32EL1 = false) (v : Word) (h : List Word)
include habsent

/-- No access depends on the contents of an absent register. -/
theorem access_withRegister (dir : Direction) (rt : Except Refusal RegIx) (cond : CondAnswer) :
    access dir rt cond (s.withRegister v h) = mapNext (State.withRegister v h) (access dir rt cond s) := by
  cases rt with
  | error r => rfl
  | ok t =>
    cases cond with
    | notSupplied => rfl
    | fails => rfl
    | passes =>
      have habsent' : (s.withRegister v h).cfg.featAA32EL1 = false := habsent
      rw [access_passes, access_passes, checkedAccess_absent habsent, checkedAccess_absent habsent']
      rfl

/-- No instruction depends on the contents of an absent register. -/
theorem exec_withRegister (i : Instr) :
    exec i (s.withRegister v h) = mapNext (State.withRegister v h) (exec i s) := by
  cases i <;> exact access_withRegister habsent v h _ _ _

/-- The program's step does not depend on the contents of an absent register. -/
theorem runInstruction_withRegister :
    runInstruction (s.withRegister v h) = mapNext (State.withRegister v h) (runInstruction s) := by
  have hcontrol : (s.withRegister v h).control = s.control := rfl
  have hdecode : (s.withRegister v h).decodeHere = s.decodeHere := rfl
  unfold runInstruction
  rw [hcontrol, hdecode]
  split
  · rfl
  · split
    · exact exec_withRegister habsent v h _
    · rfl
    · rfl

/-- No move of an agent observes the contents of an absent register: a reset does nothing to it, an access
through DBGVCR32_EL2 is refused, and a synchronisation point changes the history alone. -/
theorem act_withRegister (a : Act) : SameButRegister (act a s) (act a (s.withRegister v h)) := by
  have habsent' : (s.withRegister v h).cfg.featAA32EL1 = false := habsent
  cases a with
  | reset draw => simp only [act, State.resetEvent, habsent, habsent']; exact ⟨v, h, rfl⟩
  | aliasRead => simp only [act, aliasRead, habsent, habsent']; rfl
  | aliasWrite w => simp only [act, aliasWrite, habsent, habsent']; rfl
  | sync => exact ⟨v, [v], rfl⟩
  | setInputs | setReg | setPc | storeByte | resume => exact ⟨v, h, rfl⟩

/-- No step observes the contents of an absent register. -/
theorem step_withRegister : SameButRegister (step s) (step (s.withRegister v h)) := by
  have hschedule : (s.withRegister v h).schedule = s.schedule := rfl
  unfold step
  rw [hschedule]
  split
  · rw [runInstruction_withRegister habsent]
    exact sameButRegister_mapNext v h _
  · next ms _ =>
    have hrun := runInstruction_withRegister (s := s.setSchedule ms) habsent v h
    exact hrun ▸ sameButRegister_mapNext v h _
  · next a ms _ => exact act_withRegister (s := s.setSchedule ms) habsent v h a

end absent

/-- Settles O20: an access of an absent register is handed over as Undefined, and neither the program, an agent nor the
lookup uses what the register holds. -/
theorem absentRegisterIsUnobservable : Obligations.AbsentRegisterIsUnobservable := by
  intro s habsent
  refine ⟨fun i t hnames hruns => ?_, fun v h => ⟨fun i s' hexec => ?_, ?_, fun draw ctx exc => ?_⟩⟩
  · exact ⟨_, exec_runs hnames hruns, checkedAccess_absent habsent (dirOf i) t ▸ handOver_handedOver _ _ t s⟩
  · exact (exec_withRegister habsent v h i).trans (congrArg (mapNext (State.withRegister v h)) hexec)
  · exact step_withRegister habsent v h
  · simp [State.catchEnabled, habsent]

end Sys2Proof.Machine

/-! ### Reads and writes in program order -/

namespace Sys2Proof.Machine

/-- A run in which no step may write DBGVCR keeps what a read of it depends on, by induction over the run. -/
theorem QuietRun.keeps_register {s s' : State} (hrun : QuietRun s s') : s'.cfg = s.cfg ∧ s'.stored = s.stored := by
  induction hrun with
  | refl s => exact ⟨rfl, rfl⟩
  | step hquiet hstep _ ih =>
    obtain ⟨hcfg, hstored⟩ := ih
    obtain ⟨hstepStored, -⟩ := onlyWritersChangeTheRegister _ _ hstep hquiet
    obtain ⟨hstepCfg, -⟩ := configurationIsFixedAndOnlySetInputsWritesInputs _ _ hstep
    exact ⟨hcfg.trans hstepCfg, hstored.trans hstepStored⟩

/-- A read transfer after a run in which no step may write DBGVCR gives what the register held before that run. -/
theorem QuietRun.reg_transfer_read {s s' : State} (hrun : QuietRun s s') (u : RegIx) :
    (transfer .read u s').reg u = readOfStored s.cfg s.stored := by
  obtain ⟨hcfg, hstored⟩ := hrun.keeps_register
  rw [Machine.reg_transfer_read, hcfg, hstored]

/-- A value added to the history twice is there once. -/
theorem addValue_addValue (v : Word) (h : List Word) : addValue v (addValue v h) = addValue v h :=
  addValue_of_mem (mem_addValue.2 (.inl rfl))

/-- R68 for writes: a second write transfer of the same value moves the pc and nothing else. -/
theorem transfer_write_again {t u : RegIx} {s : State} (hsame : s.reg u = s.reg t) :
    transfer .write u (transfer .write t s) =
      { transfer .write t s with pc := (transfer .write t s).pc + 4#32 } := by
  have hreg : (transfer .write t s).reg u = s.reg t := hsame
  rw [transfer_write u, hreg]
  ext1
  case history => exact addValue_addValue (storedOfWrite s.cfg (s.reg t)) s.history
  all_goals rfl

/-- Settles O25: both reads return what the first state's register gives, for nothing between them writes it; and the
history takes a value in only once. -/
theorem accessesAreIdempotent : Obligations.AccessesAreIdempotent := by
  intro s i j t u hnames hnames' hruns hallowed
  refine ⟨fun hread hread' => ?_, fun hwrite hwrite' hruns' hsame => ?_⟩
  · refine ⟨transfer .read t s, hread ▸ exec_of_allowed hnames hruns hallowed, fun s2 hrun hruns2 hallowed2 => ?_⟩
    refine ⟨transfer .read u s2, hread' ▸ exec_of_allowed hnames' hruns2 hallowed2, ?_, hrun.keeps_register.2⟩
    exact (hrun.reg_transfer_read u).trans (reg_transfer_read t s).symm
  · exact ⟨transfer .write t s, _, hwrite ▸ exec_of_allowed hnames hruns hallowed,
      hwrite' ▸ exec_of_allowed (s := transfer .write t s) hnames' hruns' hallowed, transfer_write_again hsame⟩

/-- Settles O26: the run keeps what the MCR left in `stored`, and reading a filtered value filters nothing more; a second
MCR leaves its own value in the same way. -/
theorem readReturnsTheLastWrite : Obligations.ReadReturnsTheLastWrite := by
  intro s i j t u hwrite hnames hnames' hruns hallowed
  refine ⟨transfer .write t s, hwrite ▸ exec_of_allowed hnames hruns hallowed,
    fun s2 hrun hread hruns2 hallowed2 => ?_, fun hwrite' hruns' => ?_⟩
  · refine ⟨transfer .read u s2, hread ▸ exec_of_allowed hnames' hruns2 hallowed2, ?_⟩
    exact (hrun.reg_transfer_read u).trans (readOfStored_storedOfWrite s.cfg (s.reg t))
  · exact ⟨transfer .write u (transfer .write t s),
      hwrite' ▸ exec_of_allowed (s := transfer .write t s) hnames' hruns' hallowed,
      rfl, readOfStored_storedOfWrite s.cfg (s.reg u)⟩

/-! ### What a step leaves of memory -/

/-- A stored byte is read back at its address. -/
@[simp] theorem readByte_storeByte_same (s : State) (a : Word) (b : Byte) : (s.storeByte a b).readByte a = some b :=
  read_write_same s.mem a.toNat b

/-- A stored byte leaves every other address alone. -/
theorem readByte_storeByte_ne {a x : Word} (s : State) (b : Byte) (hx : x ≠ a) :
    (s.storeByte a b).readByte x = s.readByte x :=
  read_write_ne s.mem a.toNat x.toNat b fun h => hx (BitVec.eq_of_toNat_eq h)

/-- An agent changes the byte at an address only by the move that stores there. -/
theorem act_next_readByte {a : Act} {s s' : State} (x : Word) (h : act a s = .next s') :
    s'.readByte x = s.readByte x ∨ ∃ b, a = .storeByte x b := by
  replace h := act_next h
  cases a with
  | reset draw => obtain ⟨-, rfl⟩ | ⟨-, rfl⟩ := h <;> exact .inl rfl
  | aliasRead | aliasWrite => obtain ⟨-, rfl⟩ := h; exact .inl rfl
  | sync | setInputs | setReg | setPc | resume => dsimp only at h; subst h; exact .inl rfl
  | storeByte addr b =>
    dsimp only at h
    subst h
    by_cases hx : x = addr
    · exact .inr ⟨b, hx ▸ rfl⟩
    · exact .inl (readByte_storeByte_ne s b hx)

/-- Settles O41, by who moves: an instruction keeps every byte, and an agent every byte but the one it stores. -/
theorem noAccessTouchesMemory : Obligations.NoAccessTouchesMemory := by
  intro s s' a hstep
  refine ⟨fun hother => ?_, fun b ms hstore => ?_⟩
  · obtain ⟨i, ms, -, hexec⟩ | ⟨m, ms, hsched, hact⟩ := step_next_mover hstep
    · obtain ⟨-, -, hbytes, -⟩ := exec_next_sameSurroundings hexec
      exact hbytes a
    · obtain hkeep | ⟨b, rfl⟩ := act_next_readByte a hact
      · exact hkeep
      · exact absurd hsched (hother b ms)
  · rw [step_of_agent hstore] at hstep
    have hstored : s' = (s.setSchedule ms).storeByte a b := act_next hstep
    rw [hstored, readByte_storeByte_same]

/-! ### The program's step -/

/-- What the decoder reads at the pc is what it makes of the bytes that the fetch gives. -/
theorem decodeHere_of_fetch {s : State} {bs : List Byte} (hfetch : s.fetch = some bs) :
    s.decodeHere = decode s.cfg.codeOrder s.inputs.iset bs := by
  rw [State.decodeHere, hfetch]

/-- While the program has control, its step is the instruction that the decoder reads at the pc. -/
theorem runInstruction_of_decodeHere {s : State} {i : Instr} {rest : List Byte} (hcontrol : s.control = .program)
    (hdecode : s.decodeHere = .ok (i, rest)) : runInstruction s = exec i s := by
  simp only [runInstruction, hcontrol, hdecode]

/-- Settles O1: the four bytes are what the fetch gives, and neither the fetch nor the decoder depends on the
schedule. -/
theorem stepRunsTheDecodedInstruction : Obligations.StepRunsTheDecodedInstruction := by
  intro s b0 b1 b2 b3 i rest hcontrol h0 h1 h2 h3 hdecode
  have hfetch : s.fetch = some [b0, b1, b2, b3] := (fetch_eq_some s _).2 ⟨b0, b1, b2, b3, rfl, h0, h1, h2, h3⟩
  have hhere : s.decodeHere = .ok (i, rest) := (decodeHere_of_fetch hfetch).trans hdecode
  refine ⟨fun hnil => ?_, fun ms hcons => ?_⟩
  · rw [step, hnil]
    exact runInstruction_of_decodeHere hcontrol hhere
  · rw [step, hcons]
    exact runInstruction_of_decodeHere (s := s.setSchedule ms) hcontrol hhere

end Sys2Proof.Machine

/-! ### Words and their fields -/

namespace Sys2Proof

/-- A slice is two parts laid side by side exactly when the slices at their places are these parts. -/
theorem extractLsb'_eq_append_iff {k i m n : Nat} {w : BitVec k} {x : BitVec m} {y : BitVec n} :
    w.extractLsb' i (m + n) = x ++ y ↔ w.extractLsb' (i + n) m = x ∧ w.extractLsb' i n = y := by
  rw [← BitVec.extractLsb'_append_extractLsb'_eq_extractLsb' (x := w) rfl]
  refine ⟨fun h => ⟨?_, ?_⟩, fun ⟨hx, hy⟩ => by rw [hx, hy]⟩
  · simpa only [BitVec.extractLsb'_append_eq_left] using congrArg (BitVec.extractLsb' n m) h
  · simpa only [BitVec.extractLsb'_append_eq_right] using congrArg (BitVec.extractLsb' 0 n) h

/-- The decoder's reading of the L bit is the inverse of the encoder's. -/
theorem eq_lBit_iff {dir : Direction} {b : BitVec 1} :
    b = lBit dir ↔ (if b = 1#1 then Direction.read else .write) = dir := by
  cases dir <;> revert b <;> decide

/-- R84's figure both ways: a word is the access word of some fields exactly when the decoder reads these fields off
it. The figure is split from its low end, and each part is the slice at its place. -/
theorem eq_accessWord_iff {top rt : BitVec 4} {loc : SysRegLoc} {dir : Direction} {w : Word} :
    w = accessWord top loc dir rt ↔ w.extractLsb' 28 4 = top ∧ accessFields w = some ⟨dir, loc, rt⟩ := by
  obtain ⟨coproc, opc1, crn, crm, opc2⟩ := loc
  conv_lhs => rw [← BitVec.extractLsb'_eq_self (x := w), accessWord]
  rw [extractLsb'_eq_append_iff (m := 4 + 4 + 3 + 1 + 4 + 4 + 4 + 3 + 1) (n := 4)]
  repeat rw [extractLsb'_eq_append_iff]
  simp only [zero_add, Nat.reduceAdd, eq_lBit_iff, accessFields, Option.ite_none_right_eq_some, Option.some.injEq,
    AccessFields.mk.injEq, SysRegLoc.mk.injEq]
  tauto

/-! ### The decoder is the inverse of the encoder -/

/-- R88: the fields name an access to DBGVCR exactly when their location is DBGVCR's. -/
theorem mine_eq_ok_iff {f : Option AccessFields} {instr : AccessFields → Instr} {i : Instr} :
    mine f instr = .ok i ↔ ∃ dir rt, f = some ⟨dir, dbgvcrLoc, rt⟩ ∧ i = instr ⟨dir, dbgvcrLoc, rt⟩ := by
  cases f with
  | none => simp [mine]
  | some g =>
    obtain ⟨dir, loc, rt⟩ := g
    by_cases hloc : loc = dbgvcrLoc <;> simp [mine, hloc, eq_comm]

/-- The A32 words that are accesses to DBGVCR are the access words with a condition other than 0b1111. -/
theorem decodeWord_a32_eq_ok_iff {w : Word} {i : Instr} :
    decodeWord .a32 w = .ok i ↔
      ∃ cond dir rt, cond ≠ 0b1111#4 ∧ w = accessWord cond dbgvcrLoc dir rt ∧
        i = instrA32 cond ⟨dir, dbgvcrLoc, rt⟩ := by
  simp only [decodeWord, eq_accessWord_iff]
  split
  · next hnever => simp [hnever]
  · next hcond =>
    rw [mine_eq_ok_iff]
    exact ⟨fun ⟨dir, rt, hfields, hi⟩ => ⟨_, dir, rt, hcond, ⟨rfl, hfields⟩, hi⟩,
      fun ⟨_, dir, rt, _, ⟨htop, hfields⟩, hi⟩ => ⟨dir, rt, hfields, htop ▸ hi⟩⟩

/-- The T32 words that are accesses to DBGVCR are the access words with 0b1110 in the top four bits. -/
theorem decodeWord_t32_eq_ok_iff {w : Word} {i : Instr} :
    decodeWord .t32 w = .ok i ↔
      ∃ dir rt, w = accessWord 0b1110#4 dbgvcrLoc dir rt ∧ i = instrT32 ⟨dir, dbgvcrLoc, rt⟩ := by
  simp only [decodeWord, eq_accessWord_iff]
  split
  · next htop => simp [mine_eq_ok_iff, htop]
  · next htop => simp [htop]

/-- A word decodes to an instruction in a set exactly when it is that instruction's encoding and the instruction is of
the set and has one. -/
theorem decodeWord_eq_ok_iff {set : InstrSet} {w : Word} {i : Instr} :
    decodeWord set w = .ok i ↔ encodeWord i = w ∧ i.iset = set ∧ i.encodable = true := by
  cases set with
  | a32 =>
    rw [decodeWord_a32_eq_ok_iff]
    constructor
    · rintro ⟨cond, dir, rt, hcond, rfl, rfl⟩
      cases dir <;> exact ⟨rfl, rfl, bne_iff_ne.2 hcond⟩
    · rintro ⟨rfl, hset, henc⟩
      cases i with
      | mrcA32 cond rt => exact ⟨cond, .read, rt, bne_iff_ne.1 henc, rfl, rfl⟩
      | mcrA32 cond rt => exact ⟨cond, .write, rt, bne_iff_ne.1 henc, rfl, rfl⟩
      | mrcT32 rt | mcrT32 rt => cases hset
  | t32 =>
    rw [decodeWord_t32_eq_ok_iff]
    constructor
    · rintro ⟨dir, rt, rfl, rfl⟩
      cases dir <;> exact ⟨rfl, rfl, rfl⟩
    · rintro ⟨rfl, hset, -⟩
      cases i with
      | mrcA32 cond rt | mcrA32 cond rt => cases hset
      | mrcT32 rt => exact ⟨.read, rt, rfl, rfl⟩
      | mcrT32 rt => exact ⟨.write, rt, rfl, rfl⟩

/-- Settles O5, which is one direction of the round trip. -/
theorem decodedWordIsTheEncoding : Obligations.DecodedWordIsTheEncoding :=
  fun _ _ _ hdecode => decodeWord_eq_ok_iff.1 hdecode

/-! ### The masks and matches of R88 -/

/-- Two words that agree under a mask and at the bits it leaves out are equal. -/
theorem word_eq_of_and_eq {v w mask : Word} (hmask : v &&& mask = w &&& mask)
    (hrest : ∀ b < 32, mask.getLsbD b = false → v.getLsbD b = w.getLsbD b) : v = w := by
  refine BitVec.eq_of_getLsbD_eq fun b hb => ?_
  cases hbit : mask.getLsbD b with
  | false => exact hrest b hb hbit
  | true => simpa [hbit] using congrArg (BitVec.getLsbD · b) hmask

/-- Words with equal slices agree at the bits of the slice. -/
theorem getLsbD_eq_of_extractLsb'_eq {v w : Word} {start len b : Nat}
    (h : v.extractLsb' start len = w.extractLsb' start len) (hstart : start ≤ b) (hend : b < start + len) :
    v.getLsbD b = w.getLsbD b := by
  have hbit := congrArg (BitVec.getLsbD · (b - start)) h
  have hlt : b - start < len := by omega
  simpa [hlt, Nat.add_sub_cancel' hstart] using hbit

/-- The A32 mask leaves out the condition field and the register field, so its match and these two determine a word. -/
theorem word_eq_iff_of_a32_pattern {v w fixed : Word} {cond rt : BitVec 4}
    (hv : v &&& 0x0FFF0FFF#32 = fixed ∧ v.extractLsb' 28 4 = cond ∧ v.extractLsb' 12 4 = rt) :
    v = w ↔ w &&& 0x0FFF0FFF#32 = fixed ∧ w.extractLsb' 28 4 = cond ∧ w.extractLsb' 12 4 = rt := by
  have hfree : ∀ b < 32, (0x0FFF0FFF#32).getLsbD b = false → 28 ≤ b ∨ 12 ≤ b ∧ b < 16 := by decide
  refine ⟨fun h => h ▸ hv, fun ⟨hmask, hcond, hrt⟩ => ?_⟩
  obtain ⟨hvmask, hvcond, hvrt⟩ := hv
  refine word_eq_of_and_eq (hvmask.trans hmask.symm) fun b hb hbit => ?_
  obtain hlo | ⟨hlo, hhi⟩ := hfree b hb hbit
  · exact getLsbD_eq_of_extractLsb'_eq (hvcond.trans hcond.symm) hlo hb
  · exact getLsbD_eq_of_extractLsb'_eq (hvrt.trans hrt.symm) hlo hhi

/-- The T32 mask leaves out the register field, so its match and that field determine a word. -/
theorem word_eq_iff_of_t32_pattern {v w fixed : Word} {rt : BitVec 4}
    (hv : v &&& 0xFFFF0FFF#32 = fixed ∧ v.extractLsb' 12 4 = rt) :
    v = w ↔ w &&& 0xFFFF0FFF#32 = fixed ∧ w.extractLsb' 12 4 = rt := by
  have hfree : ∀ b < 32, (0xFFFF0FFF#32).getLsbD b = false → 12 ≤ b ∧ b < 16 := by decide
  refine ⟨fun h => h ▸ hv, fun ⟨hmask, hrt⟩ => ?_⟩
  obtain ⟨hvmask, hvrt⟩ := hv
  refine word_eq_of_and_eq (hvmask.trans hmask.symm) fun b hb hbit => ?_
  obtain ⟨hlo, hhi⟩ := hfree b hb hbit
  exact getLsbD_eq_of_extractLsb'_eq (hvrt.trans hrt.symm) hlo hhi

/-- R88 for A32, through the encoding that a decoded word is. -/
theorem decodeWord_a32_iff_match (w : Word) (i : Instr) :
    decodeWord .a32 w = .ok i ↔
      w.extractLsb' 28 4 ≠ 0b1111#4 ∧
        (w &&& 0x0FFF0FFF#32 = 0x0E100E17#32 ∧ i = .mrcA32 (w.extractLsb' 28 4) (w.extractLsb' 12 4) ∨
          w &&& 0x0FFF0FFF#32 = 0x0E000E17#32 ∧ i = .mcrA32 (w.extractLsb' 28 4) (w.extractLsb' 12 4)) := by
  rw [decodeWord_eq_ok_iff]
  cases i with
  | mrcA32 cond rt =>
    rw [word_eq_iff_of_a32_pattern (Laws.EncodedPattern.mrcA32 cond rt)]
    simp only [Instr.iset, Instr.encodable, bne_iff_ne, Instr.mrcA32.injEq, reduceCtorEq, and_false, or_false]
    aesop
  | mcrA32 cond rt =>
    rw [word_eq_iff_of_a32_pattern (Laws.EncodedPattern.mcrA32 cond rt)]
    simp only [Instr.iset, Instr.encodable, bne_iff_ne, Instr.mcrA32.injEq, reduceCtorEq, and_false, false_or]
    aesop
  | mrcT32 rt | mcrT32 rt => simp [Instr.iset]

/-- R88 for T32, through the encoding that a decoded word is. -/
theorem decodeWord_t32_iff_match (w : Word) (i : Instr) :
    decodeWord .t32 w = .ok i ↔
      w &&& 0xFFFF0FFF#32 = 0xEE100E17#32 ∧ i = .mrcT32 (w.extractLsb' 12 4) ∨
        w &&& 0xFFFF0FFF#32 = 0xEE000E17#32 ∧ i = .mcrT32 (w.extractLsb' 12 4) := by
  rw [decodeWord_eq_ok_iff]
  cases i with
  | mrcA32 cond rt | mcrA32 cond rt => simp [Instr.iset]
  | mrcT32 rt =>
    rw [word_eq_iff_of_t32_pattern (Laws.EncodedPattern.mrcT32 rt)]
    simp [Instr.iset, Instr.encodable, eq_comm]
  | mcrT32 rt =>
    rw [word_eq_iff_of_t32_pattern (Laws.EncodedPattern.mcrT32 rt)]
    simp [Instr.iset, Instr.encodable, eq_comm]

/-- The fields of a word name an access to DBGVCR or are "not mine". -/
theorem mine_eq_error {f : Option AccessFields} {instr : AccessFields → Instr} {e : DecodeRefusal}
    (h : mine f instr = .error e) : e = .notMine := by
  unfold mine at h
  split at h
  · split at h <;> cases h
    rfl
  · cases h; rfl

/-- R88: the one answer that is no instruction is "not mine". -/
theorem decodeWord_eq_error {set : InstrSet} {w : Word} {e : DecodeRefusal} (h : decodeWord set w = .error e) :
    e = .notMine := by
  cases set with
  | a32 =>
    simp only [decodeWord] at h
    split at h
    · cases h; rfl
    · exact mine_eq_error h
  | t32 =>
    simp only [decodeWord] at h
    split at h
    · exact mine_eq_error h
    · cases h; rfl

/-- Settles O3: the masks and matches are those of the encodings that decoded words are. -/
theorem decodingFollowsTheMasksAndMatches : Obligations.DecodingFollowsTheMasksAndMatches := by
  refine fun w => ⟨decodeWord_a32_iff_match w, decodeWord_t32_iff_match w, fun set hnone => ?_⟩
  cases hdecode : decodeWord set w with
  | ok i => exact absurd hdecode (hnone i)
  | error e => rw [decodeWord_eq_error hdecode]

end Sys2Proof

/-! ### Fetching what has been stored -/

namespace Sys2Proof.Machine

/-- The bytes of a word that decodes to an instruction decode to it, and none is left over. -/
theorem decode_bytesOfWord_of_ok {order : ByteOrder} {set : InstrSet} {w : Word} {i : Instr}
    (hword : decodeWord set w = .ok i) : decode order set (bytesOfWord order set w) = .ok (i, []) := by
  rw [decode_bytesOfWord, hword]

/-- The bytes of a word stored at the pc are what the fetch gives there, the top of the address space included. -/
theorem fetch_of_stored_word {s : State} {m : Memory} {order : ByteOrder} {set : InstrSet} {w : Word}
    (hmem : s.mem = m.writeBytes s.pc (bytesOfWord order set w)) : s.fetch = some (bytesOfWord order set w) := by
  obtain ⟨b0, b1, b2, b3, hbytes⟩ := bytesOfWord_eq order set w
  rw [State.fetch, hmem, hbytes, readBytes_writeBytes]

/-- With nothing scheduled, a step is the program's. -/
theorem step_of_schedule_nil {s : State} (hsched : s.schedule = []) : step s = runInstruction s := by
  rw [step, hsched]

/-- With the program in control and nothing scheduled, a word stored at the pc in the byte order and instruction set in
force is decoded there, and the step runs the instruction that it decodes to. -/
theorem stored_word_runs {s : State} {m : Memory} {w : Word} {i : Instr} (hcontrol : s.control = .program)
    (hsched : s.schedule = []) (hmem : s.mem = m.writeBytes s.pc (bytesOfWord s.cfg.codeOrder s.inputs.iset w))
    (hword : decodeWord s.inputs.iset w = .ok i) : s.decodeHere = .ok (i, []) ∧ step s = exec i s := by
  have hhere : s.decodeHere = .ok (i, []) :=
    (decodeHere_of_fetch (fetch_of_stored_word hmem)).trans (decode_bytesOfWord_of_ok hword)
  exact ⟨hhere, (step_of_schedule_nil hsched).trans (runInstruction_of_decodeHere hcontrol hhere)⟩

/-- Settles O4: the bytes of an encodable instruction are those of a word that decodes to it. -/
theorem storedInstructionIsDecodedAndRun : Obligations.StoredInstructionIsDecodedAndRun := by
  intro s i hencodable hset hcontrol hsched
  have hword : decodeWord s.inputs.iset (encodeWord i) = .ok i :=
    decodeWord_eq_ok_iff.2 ⟨rfl, hset.symm, hencodable⟩
  have hbytes : encode s.cfg.codeOrder i = bytesOfWord s.cfg.codeOrder s.inputs.iset (encodeWord i) := by
    rw [encode, hset]
  rw [hbytes]
  exact stored_word_runs hcontrol hsched rfl hword

/-- What the decoder reads from a number of the opcode table is what the number's word decodes to in its set. -/
theorem decodeWord_of_decodeTableWord {nbits w : Nat} {i : Instr} (h : decodeTableWord nbits w = some i) :
    decodeWord (tableSet (tableWord nbits w)) (tableWord nbits w) = .ok i := by
  rw [decodeTableWord, decode_bytesOfWord] at h
  cases hword : decodeWord (tableSet (tableWord nbits w)) (tableWord nbits w) with
  | ok j => rw [hword] at h; cases h; rfl
  | error e => rw [hword] at h; cases h

/-- Settles O6: the placed word is stored at the pc in the set that `withFetchWord` puts in force. -/
theorem placedWordRunsNext : Obligations.PlacedWordRunsNext := fun s w _ htable =>
  (stored_word_runs (s := s.withFetchWord 32 w) (m := s.mem) rfl rfl rfl (decodeWord_of_decodeTableWord htable)).2

/-! ### Code that stops the program -/

/-- An unwritten byte at the pc leaves the fetch without a word. -/
theorem fetch_eq_none {s : State} (hnone : s.readByte s.pc = none ∨ s.readByte (s.pc + 1#32) = none ∨
    s.readByte (s.pc + 2#32) = none ∨ s.readByte (s.pc + 3#32) = none) : s.fetch = none := by
  cases hfetch : s.fetch with
  | none => rfl
  | some bs =>
    obtain ⟨b0, b1, b2, b3, -, h0, h1, h2, h3⟩ := (fetch_eq_some s bs).1 hfetch
    simp [h0, h1, h2, h3] at hnone

/-- While the program has control, code that cannot be fetched is a fault of its step. -/
theorem runInstruction_of_fetch_none {s : State} (hcontrol : s.control = .program) (hfetch : s.fetch = none) :
    runInstruction s = .fault .codeUnwritten := by
  simp only [runInstruction, hcontrol, State.decodeHere, hfetch]

/-- While the program has control, a word that is not mine is refused by its step. -/
theorem runInstruction_of_notMine {s : State} (hcontrol : s.control = .program)
    (hdecode : s.decodeHere = .error .notMine) : runInstruction s = .refused .notMine := by
  simp only [runInstruction, hcontrol, hdecode]

/-- Settles O7: without one of the bytes there is no fetch, and with all of them the decoder answers as for their
word. -/
theorem unfetchableOrForeignCodeStops : Obligations.UnfetchableOrForeignCodeStops := by
  intro s hcontrol hsched
  rw [step_of_schedule_nil hsched]
  refine ⟨fun hnone => runInstruction_of_fetch_none hcontrol (fetch_eq_none hnone),
    fun b0 b1 b2 b3 h0 h1 h2 h3 hforeign => runInstruction_of_notMine hcontrol ?_⟩
  rw [decodeHere_of_fetch ((fetch_eq_some s _).2 ⟨b0, b1, b2, b3, rfl, h0, h1, h2, h3⟩), decode, hforeign]

/-! ### Refused forms, and A32 against T32 -/

/-- A refused register is the access's refusal, whatever the condition is. -/
theorem access_of_error {rt : Except Refusal RegIx} {r : Refusal} (hrt : rt = .error r) (dir : Direction)
    (cond : CondAnswer) (s : State) : access dir rt cond s = .refused r := by
  rw [hrt, access]

/-- An admitted register with a condition that nobody evaluates is refused for the condition. -/
theorem access_of_notSupplied {rt : Except Refusal RegIx} {t : RegIx} {cond : CondAnswer} (hrt : rt = .ok t)
    (hcond : cond = .notSupplied) (dir : Direction) (s : State) : access dir rt cond s = .refused .refusedCond := by
  rw [hrt, hcond, access]

/-- R90 (a) in A32. -/
theorem admitA32_rt15 {cond : BitVec 4} (hcond : cond ≠ 0b1111#4) : admitA32 cond 15#4 = .error .refusedRt15 :=
  if_neg hcond

/-- R90 (a) in T32. -/
theorem admitT32_rt15 : admitT32 15#4 = .error .refusedRt15 := rfl

/-- R90 (b). -/
theorem admitT32_rt13 : admitT32 13#4 = .error .refusedRt13T32 := rfl

/-- An A32 term with cond = 0b1111 is not mine, whatever its register is. -/
theorem admitA32_condNever (rt : BitVec 4) : admitA32 0b1111#4 rt = .error .notMine := rfl

/-- Every operand but 15 is the number of a general register. -/
theorem exists_regIx {rt : BitVec 4} (h15 : rt ≠ 15#4) : ∃ t : RegIx, rt.toNat = t.val :=
  ⟨⟨rt.toNat, by bv_omega⟩, rfl⟩

/-- R110: an A32 form other than "always" takes the surrounding processor's answer. -/
theorem condA32_of_ne {cond : BitVec 4} (halways : cond ≠ 0b1110#4) (i : Inputs) : condA32 cond i = i.condAnswer :=
  if_neg halways

/-- R110: a T32 form inside an IT block takes the surrounding processor's answer. -/
theorem condT32_of_inITBlock {i : Inputs} (hit : i.inITBlock = true) : condT32 i = i.condAnswer := if_pos hit

/-- R88: no word with cond = 0b1111 is an A32 access to DBGVCR. -/
theorem decodeWord_a32_condNever {w : Word} (hcond : w.extractLsb' 28 4 = 0b1111#4) :
    decodeWord .a32 w = .error .notMine := if_pos hcond

/-- An A32 form with a refused operand is refused for it, in both directions. -/
theorem exec_a32_of_refused {cond rt : BitVec 4} {r : Refusal} (hrt : admitA32 cond rt = .error r) (s : State) :
    exec (.mrcA32 cond rt) s = .refused r ∧ exec (.mcrA32 cond rt) s = .refused r :=
  ⟨access_of_error hrt .read (condA32 cond s.inputs) s, access_of_error hrt .write (condA32 cond s.inputs) s⟩

/-- A T32 form with a refused operand is refused for it, in both directions. -/
theorem exec_t32_of_refused {rt : BitVec 4} {r : Refusal} (hrt : admitT32 rt = .error r) (s : State) :
    exec (.mrcT32 rt) s = .refused r ∧ exec (.mcrT32 rt) s = .refused r :=
  ⟨access_of_error hrt .read (condT32 s.inputs) s, access_of_error hrt .write (condT32 s.inputs) s⟩

/-- Settles O17: the operand decides first, and an admitted one leaves the refusal to the condition. -/
theorem refusedFormsStopByName : Obligations.RefusedFormsStopByName := by
  intro s
  obtain ⟨hmrc15, hmcr15⟩ := exec_t32_of_refused admitT32_rt15 s
  obtain ⟨hmrc13, hmcr13⟩ := exec_t32_of_refused admitT32_rt13 s
  refine ⟨fun cond hcond => exec_a32_of_refused (admitA32_rt15 hcond) s, hmrc15, hmcr15, hmrc13, hmcr13,
    fun _ => decodeWord_a32_condNever, fun rt => exec_a32_of_refused (admitA32_condNever rt) s,
    fun hanswer => ⟨fun cond rt hcond halways h15 => ?_, fun rt hit h13 h15 => ?_⟩⟩
  · obtain ⟨t, ht⟩ := exists_regIx h15
    have hrefused := access_of_notSupplied (admitA32_ok.2 ⟨hcond, ht⟩) ((condA32_of_ne halways _).trans hanswer)
    exact ⟨hrefused .read s, hrefused .write s⟩
  · obtain ⟨t, ht⟩ := exists_regIx h15
    have hrefused := access_of_notSupplied (admitT32_ok.2 ⟨ht, regIx_ne_13 ht h13⟩)
      ((condT32_of_inITBlock hit).trans hanswer)
    exact ⟨hrefused .read s, hrefused .write s⟩

/-- The two sets admit the same operands but for 13. -/
theorem admitA32_always_eq_admitT32 {rt : BitVec 4} (h13 : rt ≠ 13#4) : admitA32 0b1110#4 rt = admitT32 rt := by
  rw [admitA32, admitT32, if_neg (by decide), if_neg h13]

/-- "Always" in A32 and no IT block in T32 both pass. -/
theorem condA32_always_eq_condT32 {i : Inputs} (hit : i.inITBlock = false) : condA32 0b1110#4 i = condT32 i :=
  (condA32_passes.2 (.inl rfl)).trans (condT32_passes.2 (.inl hit)).symm

/-- Settles O19: the forms are one access, of the same operand under the same condition. -/
theorem a32AndT32FormsAgree : Obligations.A32AndT32FormsAgree := by
  intro s rt h13 hit
  have hsame (dir : Direction) : access dir (admitA32 0b1110#4 rt) (condA32 0b1110#4 s.inputs) s =
      access dir (admitT32 rt) (condT32 s.inputs) s := by
    rw [admitA32_always_eq_admitT32 h13, condA32_always_eq_condT32 hit]
  exact ⟨hsame .read, hsame .write⟩

end Sys2Proof.Machine

/-! ### Which test of the access checks decides -/

namespace Sys2Proof.Machine

/-- R101 as rules: one for each test that can decide the outcome, with the reasons why no test before it has. -/
inductive CheckDecides (c : Config) (i : Inputs) : AccessOutcome → Prop where
  /-- Step 1. -/
  | absent (habsent : c.featAA32EL1 = false) : CheckDecides c i .undefined
  /-- Step 2. -/
  | el0 (hpresent : c.featAA32EL1 = true) (hel : i.el = .el0) : CheckDecides c i .undefined
  /-- Step 3. -/
  | el1Priority (hpresent : c.featAA32EL1 = true) (hel : i.el = .el1) (h3 : El3Traps c i)
      (hprio : i.sddUndefPriority = true) : CheckDecides c i .undefined
  /-- Step 4. -/
  | el1Trap64 (hpresent : c.featAA32EL1 = true) (hel : i.el = .el1)
      (hprio : ¬ (El3Traps c i ∧ i.sddUndefPriority = true)) (h64 : El2Traps64 c i) :
      CheckDecides c i (.sysTrap64 .el2 0x05#8)
  /-- Step 5. -/
  | el1Trap32 (hpresent : c.featAA32EL1 = true) (hel : i.el = .el1)
      (hprio : ¬ (El3Traps c i ∧ i.sddUndefPriority = true)) (h64 : ¬ El2Traps64 c i) (h32 : El2Traps32 c i) :
      CheckDecides c i (.hypTrap 0x05#8)
  /-- Step 6a. -/
  | el1Undef (hpresent : c.featAA32EL1 = true) (hel : i.el = .el1) (h3 : El3Traps c i)
      (hprio : i.sddUndefPriority = false) (h64 : ¬ El2Traps64 c i) (h32 : ¬ El2Traps32 c i)
      (hundef : i.sddUndef = true) : CheckDecides c i .undefined
  /-- Step 6b. -/
  | el1TrapEl3 (hpresent : c.featAA32EL1 = true) (hel : i.el = .el1) (h3 : El3Traps c i)
      (hprio : i.sddUndefPriority = false) (h64 : ¬ El2Traps64 c i) (h32 : ¬ El2Traps32 c i)
      (hundef : i.sddUndef = false) : CheckDecides c i (.sysTrap64 .el3 0x05#8)
  /-- Step 7. -/
  | el1Access (hpresent : c.featAA32EL1 = true) (hel : i.el = .el1) (h3 : ¬ El3Traps c i) (h64 : ¬ El2Traps64 c i)
      (h32 : ¬ El2Traps32 c i) : CheckDecides c i .access
  /-- Step 8. -/
  | el2Priority (hpresent : c.featAA32EL1 = true) (hel : i.el = .el2) (h3 : El3Traps c i)
      (hprio : i.sddUndefPriority = true) : CheckDecides c i .undefined
  /-- Step 9a. -/
  | el2Undef (hpresent : c.featAA32EL1 = true) (hel : i.el = .el2) (h3 : El3Traps c i)
      (hprio : i.sddUndefPriority = false) (hundef : i.sddUndef = true) : CheckDecides c i .undefined
  /-- Step 9b. -/
  | el2TrapEl3 (hpresent : c.featAA32EL1 = true) (hel : i.el = .el2) (h3 : El3Traps c i)
      (hprio : i.sddUndefPriority = false) (hundef : i.sddUndef = false) :
      CheckDecides c i (.sysTrap64 .el3 0x05#8)
  /-- Step 10. -/
  | el2Access (hpresent : c.featAA32EL1 = true) (hel : i.el = .el2) (h3 : ¬ El3Traps c i) : CheckDecides c i .access
  /-- Step 11. -/
  | el3 (hpresent : c.featAA32EL1 = true) (hel : i.el = .el3) : CheckDecides c i .access

/-- The outcome that a test decides is the one that comes out of the chain. -/
theorem CheckDecides.accessCheck_eq {c : Config} {i : Inputs} {o : AccessOutcome} (h : CheckDecides c i o) :
    accessCheck c i = o := by
  cases h with
  | absent habsent => simp [accessCheck, habsent]
  | el0 hpresent hel | el3 hpresent hel => simp [accessCheck, hpresent, hel]
  | el1Priority hpresent hel h3 hprio | el2Priority hpresent hel h3 hprio =>
    simp [accessCheck, hpresent, hel, e3t_iff, h3, hprio]
  | el1Trap64 hpresent hel hprio h64 => simp [accessCheck, hpresent, hel, e3t_iff, hprio, e2t64_iff, h64, trapCode]
  | el1Trap32 hpresent hel hprio h64 h32 =>
    simp [accessCheck, hpresent, hel, e3t_iff, hprio, e2t64_iff, h64, e2t32_iff, h32, trapCode]
  | el1Undef hpresent hel h3 hprio h64 h32 hundef | el1TrapEl3 hpresent hel h3 hprio h64 h32 hundef =>
    simp [accessCheck, checkEL3Trap, hpresent, hel, e3t_iff, h3, hprio, e2t64_iff, h64, e2t32_iff, h32, hundef,
      trapCode]
  | el2Undef hpresent hel h3 hprio hundef | el2TrapEl3 hpresent hel h3 hprio hundef =>
    simp [accessCheck, checkEL3Trap, hpresent, hel, e3t_iff, h3, hprio, hundef, trapCode]
  | el1Access hpresent hel h3 h64 h32 => exact (accessCheck_el1_eq_access_iff hpresent hel).2 ⟨h3, h64, h32⟩
  | el2Access hpresent hel h3 => exact (accessCheck_el2_eq_access_iff hpresent hel).2 h3

/-- One of the tests always decides. -/
theorem exists_checkDecides (c : Config) (i : Inputs) : ∃ o, CheckDecides c i o := by
  cases hpresent : c.featAA32EL1 with
  | false => exact ⟨_, .absent hpresent⟩
  | true =>
    cases hel : i.el with
    | el0 => exact ⟨_, .el0 hpresent hel⟩
    | el3 => exact ⟨_, .el3 hpresent hel⟩
    | el2 =>
      by_cases h3 : El3Traps c i
      · cases hprio : i.sddUndefPriority with
        | true => exact ⟨_, .el2Priority hpresent hel h3 hprio⟩
        | false =>
          cases hundef : i.sddUndef with
          | true => exact ⟨_, .el2Undef hpresent hel h3 hprio hundef⟩
          | false => exact ⟨_, .el2TrapEl3 hpresent hel h3 hprio hundef⟩
      · exact ⟨_, .el2Access hpresent hel h3⟩
    | el1 =>
      by_cases hprio : El3Traps c i ∧ i.sddUndefPriority = true
      · obtain ⟨h3, hprio⟩ := hprio
        exact ⟨_, .el1Priority hpresent hel h3 hprio⟩
      · by_cases h64 : El2Traps64 c i
        · exact ⟨_, .el1Trap64 hpresent hel hprio h64⟩
        · by_cases h32 : El2Traps32 c i
          · exact ⟨_, .el1Trap32 hpresent hel hprio h64 h32⟩
          · by_cases h3 : El3Traps c i
            · have hprio' : i.sddUndefPriority = false := by simpa [h3] using hprio
              cases hundef : i.sddUndef with
              | true => exact ⟨_, .el1Undef hpresent hel h3 hprio' h64 h32 hundef⟩
              | false => exact ⟨_, .el1TrapEl3 hpresent hel h3 hprio' h64 h32 hundef⟩
            · exact ⟨_, .el1Access hpresent hel h3 h64 h32⟩

/-- The chain and the rules give the same outcome. -/
theorem accessCheck_eq_iff_checkDecides {c : Config} {i : Inputs} {o : AccessOutcome} :
    accessCheck c i = o ↔ CheckDecides c i o := by
  refine ⟨?_, CheckDecides.accessCheck_eq⟩
  rintro rfl
  obtain ⟨o, ho⟩ := exists_checkDecides c i
  exact ho.accessCheck_eq ▸ ho

/-- Step 4 is the one test that traps to EL2 using AArch64. -/
theorem accessCheck_eq_sysTrap64_el2_iff {c : Config} {i : Inputs} : accessCheck c i = .sysTrap64 .el2 0x05#8 ↔
    c.featAA32EL1 = true ∧ i.el = .el1 ∧ ¬ (El3Traps c i ∧ i.sddUndefPriority = true) ∧ El2Traps64 c i := by
  rw [accessCheck_eq_iff_checkDecides]
  constructor
  · rintro ⟨⟩
    case el1Trap64 hpresent hel hprio h64 => exact ⟨hpresent, hel, hprio, h64⟩
  · rintro ⟨hpresent, hel, hprio, h64⟩
    exact .el1Trap64 hpresent hel hprio h64

/-- Step 5 is the one test that traps to EL2 using AArch32. -/
theorem accessCheck_eq_hypTrap_iff {c : Config} {i : Inputs} : accessCheck c i = .hypTrap 0x05#8 ↔
    c.featAA32EL1 = true ∧ i.el = .el1 ∧ ¬ (El3Traps c i ∧ i.sddUndefPriority = true) ∧ ¬ El2Traps64 c i ∧
      El2Traps32 c i := by
  rw [accessCheck_eq_iff_checkDecides]
  constructor
  · rintro ⟨⟩
    case el1Trap32 hpresent hel hprio h64 h32 => exact ⟨hpresent, hel, hprio, h64, h32⟩
  · rintro ⟨hpresent, hel, hprio, h64, h32⟩
    exact .el1Trap32 hpresent hel hprio h64 h32

/-- Steps 6b and 9b are the tests that trap to EL3. -/
theorem accessCheck_eq_sysTrap64_el3_iff {c : Config} {i : Inputs} : accessCheck c i = .sysTrap64 .el3 0x05#8 ↔
    c.featAA32EL1 = true ∧ El3Traps c i ∧ i.sddUndefPriority = false ∧ i.sddUndef = false ∧
      (i.el = .el2 ∨ i.el = .el1 ∧ ¬ El2Traps64 c i ∧ ¬ El2Traps32 c i) := by
  rw [accessCheck_eq_iff_checkDecides]
  constructor
  · rintro ⟨⟩
    case el1TrapEl3 hpresent hel h3 hprio h64 h32 hundef => exact ⟨hpresent, h3, hprio, hundef, .inr ⟨hel, h64, h32⟩⟩
    case el2TrapEl3 hpresent hel h3 hprio hundef => exact ⟨hpresent, h3, hprio, hundef, .inl hel⟩
  · rintro ⟨hpresent, h3, hprio, hundef, hel | ⟨hel, h64, h32⟩⟩
    · exact .el2TrapEl3 hpresent hel h3 hprio hundef
    · exact .el1TrapEl3 hpresent hel h3 hprio h64 h32 hundef

/-- The tests that end in Undefined: steps 1 and 2, and under a trap of EL3 steps 3 and 8 with priority, and 6a and 9a
without. -/
theorem accessCheck_eq_undefined_iff {c : Config} {i : Inputs} : accessCheck c i = .undefined ↔
    c.featAA32EL1 = false ∨ i.el = .el0 ∨
      El3Traps c i ∧
        ((i.el = .el1 ∨ i.el = .el2) ∧ i.sddUndefPriority = true ∨
          i.sddUndef = true ∧ (i.el = .el2 ∨ i.el = .el1 ∧ ¬ El2Traps64 c i ∧ ¬ El2Traps32 c i)) := by
  rw [accessCheck_eq_iff_checkDecides]
  constructor
  · rintro ⟨⟩
    case absent habsent => exact .inl habsent
    case el0 hel => exact .inr (.inl hel)
    case el1Priority hel h3 hprio => exact .inr (.inr ⟨h3, .inl ⟨.inl hel, hprio⟩⟩)
    case el1Undef hel h3 _ h64 h32 hundef => exact .inr (.inr ⟨h3, .inr ⟨hundef, .inr ⟨hel, h64, h32⟩⟩⟩)
    case el2Priority hel h3 hprio => exact .inr (.inr ⟨h3, .inl ⟨.inr hel, hprio⟩⟩)
    case el2Undef hel h3 _ hundef => exact .inr (.inr ⟨h3, .inr ⟨hundef, .inl hel⟩⟩)
  · intro hconditions
    cases hpresent : c.featAA32EL1 with
    | false => exact .absent hpresent
    | true =>
      obtain habsent | hel | ⟨h3, ⟨hel | hel, hprio⟩ | ⟨hundef, hel | ⟨hel, h64, h32⟩⟩⟩ := hconditions
      · simp [habsent] at hpresent
      · exact .el0 hpresent hel
      · exact .el1Priority hpresent hel h3 hprio
      · exact .el2Priority hpresent hel h3 hprio
      · cases hprio : i.sddUndefPriority with
        | true => exact .el2Priority hpresent hel h3 hprio
        | false => exact .el2Undef hpresent hel h3 hprio hundef
      · cases hprio : i.sddUndefPriority with
        | true => exact .el1Priority hpresent hel h3 hprio
        | false => exact .el1Undef hpresent hel h3 hprio h64 h32 hundef

/-- Settles O8: each outcome by the tests of the chain that give it. -/
theorem checkChainDecidesEachOutcome : Obligations.CheckChainDecidesEachOutcome := fun _ _ =>
  ⟨accessCheck_eq_access_iff, accessCheck_eq_sysTrap64_el2_iff, accessCheck_eq_hypTrap_iff,
    accessCheck_eq_sysTrap64_el3_iff, accessCheck_eq_undefined_iff⟩

/-- Settles O9: by the outcomes that the tests of the chain decide. -/
theorem everyOutcomeIsOneOfTheFour : Obligations.EveryOutcomeIsOneOfTheFour := by
  intro c i
  obtain ⟨o, ho⟩ := exists_checkDecides c i
  rw [ho.accessCheck_eq]
  cases ho <;> simp

/-- Without a trap of EL3, the test that decides does so for any values of the two predicates: steps 3, 6, 8 and 9 are
out of the question. -/
theorem CheckDecides.of_not_el3Traps {c : Config} {i : Inputs} {o : AccessOutcome} (h : CheckDecides c i o)
    (h3 : ¬ El3Traps c i) (p q : Bool) : CheckDecides c { i with sddUndefPriority := p, sddUndef := q } o := by
  cases h with
  | absent habsent => exact .absent habsent
  | el0 hpresent hel => exact .el0 hpresent hel
  | el1Trap64 hpresent hel _ h64 => exact .el1Trap64 hpresent hel (fun hprio => h3 hprio.1) h64
  | el1Trap32 hpresent hel _ h64 h32 => exact .el1Trap32 hpresent hel (fun hprio => h3 hprio.1) h64 h32
  | el1Access hpresent hel _ h64 h32 => exact .el1Access hpresent hel h3 h64 h32
  | el2Access hpresent hel => exact .el2Access hpresent hel h3
  | el3 hpresent hel => exact .el3 hpresent hel
  | el1Priority | el1Undef | el1TrapEl3 | el2Priority | el2Undef | el2TrapEl3 => contradiction

/-- Settles O12: the same test decides. -/
theorem debugPredicatesMatterOnlyUnderAnEl3Trap : Obligations.DebugPredicatesMatterOnlyUnderAnEl3Trap := by
  intro c i p q h3
  obtain ⟨o, ho⟩ := exists_checkDecides c i
  rw [ho.accessCheck_eq, (ho.of_not_el3Traps h3 p q).accessCheck_eq]

/-! ### The access that is turned away -/

/-- The reason that an outcome of the checks hands control over with; the access has none. -/
def AccessOutcome.reason : AccessOutcome → Option Reason
  | .access => none
  | .undefined => some .undefined
  | .sysTrap64 target code => some (.sysTrap64 target code)
  | .hypTrap code => some (.hypTrap code)

/-- An access that the checks turn away hands control over with the reason of their outcome, whichever its direction and
register are (R105). -/
theorem checkedAccess_of_reason {s : State} {reason : Reason}
    (hreason : (accessCheck s.cfg s.inputs).reason = some reason) (dir : Direction) (t : RegIx) :
    checkedAccess dir t s = s.handOver reason dir t := by
  unfold checkedAccess
  generalize accessCheck s.cfg s.inputs = o at hreason ⊢
  cases o with
  | access => cases hreason
  | undefined | sysTrap64 | hypTrap => cases hreason; rfl

/-- An access that the checks allow is the transfer. -/
theorem checkedAccess_of_access {s : State} (haccess : accessCheck s.cfg s.inputs = .access) (dir : Direction)
    (t : RegIx) : checkedAccess dir t s = transfer dir t s := by
  rw [checkedAccess, haccess]

/-- Every outcome but the access has a reason. -/
theorem AccessOutcome.eq_access_or_reason (o : AccessOutcome) :
    o = .access ∨ o ≠ .access ∧ ∃ reason, o.reason = some reason := by
  cases o with
  | access => exact .inl rfl
  | undefined | sysTrap64 | hypTrap => exact .inr ⟨nofun, _, rfl⟩

/-- An instruction that the checks turn away leaves the handover, frame and all. -/
theorem exec_handsOver_of_reason {i : Instr} {t : RegIx} {s : State} {reason : Reason} (hnames : Names i t)
    (hruns : Runs i s.inputs) (hreason : (accessCheck s.cfg s.inputs).reason = some reason) :
    ∃ s', exec i s = .next s' ∧ HandedOver reason (dirOf i) t s s' :=
  ⟨s.handOver reason (dirOf i) t, checkedAccess_of_reason hreason (dirOf i) t ▸ exec_runs hnames hruns,
    handOver_handedOver reason (dirOf i) t s⟩

/-- Settles O15: the outcome's reason is the one handed over, by each of the four forms. -/
theorem exceptionalOutcomeHandsOver : Obligations.ExceptionalOutcomeHandsOver := by
  intro s cond rt t reason hrt hcheck
  have hreason : (accessCheck s.cfg s.inputs).reason = some reason := by
    obtain ⟨hcheck, rfl⟩ | ⟨target, code, hcheck, rfl⟩ | ⟨code, hcheck, rfl⟩ := hcheck <;> rw [hcheck] <;> rfl
  refine ⟨fun hruns => ?_, fun h13 hruns => ?_⟩
  · exact ⟨exec_handsOver_of_reason (i := .mrcA32 cond rt) hrt hruns hreason,
      exec_handsOver_of_reason (i := .mcrA32 cond rt) hrt hruns hreason⟩
  · have hnames : rt.toNat = t.val ∧ t.val ≠ 13 := ⟨hrt, regIx_ne_13 hrt h13⟩
    exact ⟨exec_handsOver_of_reason (i := .mrcT32 rt) hnames hruns hreason,
      exec_handsOver_of_reason (i := .mcrT32 rt) hnames hruns hreason⟩

/-- An admitted access whose condition fails leaves the handover of that, frame and all. -/
theorem access_handsOver_of_fails {rt : Except Refusal RegIx} {t : RegIx} {cond : CondAnswer} (hrt : rt = .ok t)
    (hcond : cond = .fails) (dir : Direction) (s : State) :
    ∃ s', access dir rt cond s = .next s' ∧ HandedOver .conditionFailed dir t s s' :=
  ⟨s.handOver .conditionFailed dir t, by rw [hrt, hcond, access], handOver_handedOver .conditionFailed dir t s⟩

/-- Settles O16: a conditional form takes the surrounding processor's answer, which is that the condition fails. -/
theorem failedConditionHandsOver : Obligations.FailedConditionHandsOver := by
  intro s cond rt t hrt hanswer
  refine ⟨fun hcond halways => ?_, fun h13 hit => ?_⟩
  · have hhandsOver := access_handsOver_of_fails (admitA32_ok.2 ⟨hcond, hrt⟩)
      ((condA32_of_ne halways s.inputs).trans hanswer)
    exact ⟨hhandsOver .read s, hhandsOver .write s⟩
  · have hhandsOver := access_handsOver_of_fails (admitT32_ok.2 ⟨hrt, regIx_ne_13 hrt h13⟩)
      ((condT32_of_inITBlock hit).trans hanswer)
    exact ⟨hhandsOver .read s, hhandsOver .write s⟩

/-- Settles O43: only the transfer touches the register and the general registers, and only the access is one. -/
theorem noPartialEffect : Obligations.NoPartialEffect := by
  intro s s' i hdenied hexec
  obtain ⟨t, -, ⟨-, hallowed, -⟩ | ⟨reason, rfl, -⟩⟩ := exec_next_transfer_or_handOver hexec
  · exact absurd (accessCheck_eq_access_iff.2 hallowed) hdenied
  · exact ⟨rfl, rfl, fun _ => rfl⟩

/-! ### Who may access the register -/

section checkedAccessControl

variable {s : State} (hcontrol : s.control = .program) (dir : Direction) (t : RegIx)
include hcontrol

/-- The program keeps control exactly when the checks give the access. -/
theorem checkedAccess_keeps_control_iff :
    (checkedAccess dir t s).control = .program ↔ accessCheck s.cfg s.inputs = .access := by
  obtain haccess | ⟨hdenied, reason, hreason⟩ := (accessCheck s.cfg s.inputs).eq_access_or_reason
  · simp only [checkedAccess_of_access haccess, transfer_control, hcontrol, haccess]
  · simp [checkedAccess_of_reason hreason, hdenied]

/-- A reason is handed over exactly when it is that of the outcome of the checks. -/
theorem checkedAccess_handsOver_iff (reason : Reason) :
    (checkedAccess dir t s).control = .handedOver ⟨reason, dir, t, dbgvcrLoc⟩ ↔
      (accessCheck s.cfg s.inputs).reason = some reason := by
  obtain haccess | ⟨-, reason', hreason⟩ := (accessCheck s.cfg s.inputs).eq_access_or_reason
  · simp [checkedAccess_of_access haccess, hcontrol, haccess, AccessOutcome.reason]
  · simp [checkedAccess_of_reason hreason, hreason]

end checkedAccessControl

/-- Settles O18: what becomes of control depends on the outcome of the checks, which knows neither the direction nor the
register. -/
theorem readAndWriteAreCheckedAlike : Obligations.ReadAndWriteAreCheckedAlike := by
  intro s i j t u hcontrol hnames hnames' hruns hruns'
  refine ⟨_, _, exec_runs hnames hruns, exec_runs hnames' hruns', ?_, fun reason => ?_⟩
  · rw [checkedAccess_keeps_control_iff hcontrol, checkedAccess_keeps_control_iff hcontrol]
  · rw [checkedAccess_handsOver_iff hcontrol, checkedAccess_handsOver_iff hcontrol]

/-- Settles O21: step 2 turns EL0 away, and elsewhere the program keeps control exactly when the checks give the
access, which is the transfer. -/
theorem privilegeDecidesWhoMayAccess : Obligations.PrivilegeDecidesWhoMayAccess := by
  intro s i t hpresent hcontrol hnames hruns
  have hkeeps := checkedAccess_keeps_control_iff hcontrol (dirOf i) t
  refine ⟨_, exec_runs hnames hruns, fun hel => ?_, fun hel => ?_, fun hel => ?_, fun hel => ?_, fun hprogram => ?_⟩
  · have hreason : (accessCheck s.cfg s.inputs).reason = some .undefined := by
      rw [(CheckDecides.el0 hpresent hel).accessCheck_eq, AccessOutcome.reason]
    exact checkedAccess_of_reason hreason (dirOf i) t ▸ handOver_handedOver .undefined (dirOf i) t s
  · exact hkeeps.2 (CheckDecides.el3 hpresent hel).accessCheck_eq
  · exact hkeeps.trans (accessCheck_el1_eq_access_iff hpresent hel)
  · exact hkeeps.trans (accessCheck_el2_eq_access_iff hpresent hel)
  · rw [checkedAccess_of_access (hkeeps.1 hprogram)]
    exact ⟨fun hdir => hdir ▸ transfer_readDone t s, fun hdir => hdir ▸ transfer_writeDone t s⟩

end Sys2Proof.Machine

/-! ### Which controls count -/

namespace Sys2Proof.Machine

/-- EL2 uses one execution state, so its two traps exclude each other. -/
theorem El2Traps32.not_el2Traps64 {c : Config} {i : Inputs} (h32 : El2Traps32 c i) : ¬ El2Traps64 c i := by
  obtain ⟨-, -, hAArch32, -⟩ := h32
  rintro ⟨-, -, hAArch64, -⟩
  exact absurd hAArch32 (by simp [hAArch64])

/-- The one input that EL3's trap looks at is its control. -/
theorem el3Traps_congr (c : Config) {i j : Inputs} (htda : i.mdcrEl3Tda = j.mdcrEl3Tda) :
    El3Traps c i ↔ El3Traps c j := by
  rw [El3Traps, El3Traps, htda]

/-- Settles O11: under a trap of EL3 the tests of EL1 decide in the order of steps 3, 4, 5, 6a and 6b. -/
theorem trapPriorityAtEl1 : Obligations.TrapPriorityAtEl1 := by
  intro c i hpresent hel
  have hpast3 (hprio : i.sddUndefPriority = false) : ¬ (El3Traps c i ∧ i.sddUndefPriority = true) := by simp [hprio]
  refine ⟨fun h3 hprio => ?_, fun _ hprio h64 => ?_, fun _ hprio h32 => ?_,
    fun h3 hprio h64 h32 => ⟨fun hundef => ?_, fun hundef => ?_⟩⟩
  · exact (CheckDecides.el1Priority hpresent hel h3 hprio).accessCheck_eq
  · exact (CheckDecides.el1Trap64 hpresent hel (hpast3 hprio) h64).accessCheck_eq
  · exact (CheckDecides.el1Trap32 hpresent hel (hpast3 hprio) h32.not_el2Traps64 h32).accessCheck_eq
  · exact (CheckDecides.el1Undef hpresent hel h3 hprio h64 h32 hundef).accessCheck_eq
  · exact (CheckDecides.el1TrapEl3 hpresent hel h3 hprio h64 h32 hundef).accessCheck_eq

/-- Away from EL1, the test that decides does so for any inputs of the same Exception level, EL3 control and debug
predicates: only steps 3 to 7 look at EL2's controls. -/
theorem CheckDecides.of_el_ne_el1 {c : Config} {i j : Inputs} {o : AccessOutcome} (h : CheckDecides c i o)
    (hne : i.el ≠ .el1) (hel : i.el = j.el) (htda : i.mdcrEl3Tda = j.mdcrEl3Tda)
    (hprio : i.sddUndefPriority = j.sddUndefPriority) (hundef : i.sddUndef = j.sddUndef) : CheckDecides c j o := by
  have h3 := el3Traps_congr c htda
  rw [hel] at hne
  cases h with
  | absent habsent => exact .absent habsent
  | el0 hpresent hel0 => exact .el0 hpresent (hel ▸ hel0)
  | el2Priority hpresent hel2 htrap hp => exact .el2Priority hpresent (hel ▸ hel2) (h3.1 htrap) (hprio ▸ hp)
  | el2Undef hpresent hel2 htrap hp hu =>
    exact .el2Undef hpresent (hel ▸ hel2) (h3.1 htrap) (hprio ▸ hp) (hundef ▸ hu)
  | el2TrapEl3 hpresent hel2 htrap hp hu =>
    exact .el2TrapEl3 hpresent (hel ▸ hel2) (h3.1 htrap) (hprio ▸ hp) (hundef ▸ hu)
  | el2Access hpresent hel2 htrap => exact .el2Access hpresent (hel ▸ hel2) (mt h3.2 htrap)
  | el3 hpresent hel3 => exact .el3 hpresent (hel ▸ hel3)
  | el1Priority _ hel1 | el1Trap64 _ hel1 | el1Trap32 _ hel1 | el1Undef _ hel1 | el1TrapEl3 _ hel1
  | el1Access _ hel1 => exact absurd (hel ▸ hel1) hne

/-- Settles O10: the same test decides for both inputs, and at EL3 it is step 11. -/
theorem ownAndLowerControlsNeverTrap : Obligations.OwnAndLowerControlsNeverTrap := by
  intro c i j hel hne
  refine ⟨fun htda hprio hundef => ?_, fun hel3 hpresent => ⟨?_, ?_⟩⟩
  · obtain ⟨o, ho⟩ := exists_checkDecides c i
    rw [ho.accessCheck_eq, (ho.of_el_ne_el1 hne hel htda hprio hundef).accessCheck_eq]
  · exact (CheckDecides.el3 hpresent hel3).accessCheck_eq
  · exact (CheckDecides.el3 hpresent (hel ▸ hel3)).accessCheck_eq

/-! ### The enable lookup -/

/-- The bit that the lookup gives is that of a field of the layout's table for the exception, in the context or in
none. -/
theorem exists_field_of_mem_vcEnableBit (l : Layout) (ctx : Ctx) (exc : Exc) : ∀ b ∈ vcEnableBit l ctx exc,
    ∃ f ∈ fields l, f.lo = b ∧ ∃ e ∈ f.enable, e.exc = exc ∧ (e.ctx = some ctx ∨ e.ctx = none) := by
  cases l <;> cases ctx <;> cases exc <;> decide

/-- The lookup gives the bit of every field of the layout's table, for the field's exception and in its context, or in
any context when it names none. -/
theorem vcEnableBit_of_field (l : Layout) (ctx : Ctx) : ∀ f ∈ fields l, ∀ e ∈ f.enable,
    e.ctx = some ctx ∨ e.ctx = none → vcEnableBit l ctx e.exc = some f.lo := by
  cases l <;> cases ctx <;> decide

/-- Settles O30: the lookup against each row of the tables, and each cell of the lookup against the tables. -/
theorem lookupFindsTheNamedField : Obligations.LookupFindsTheNamedField := by
  intro l ctx exc b
  constructor
  · intro hlookup
    obtain ⟨f, hf, hlo, e, he, hexc, hctx⟩ := exists_field_of_mem_vcEnableBit l ctx exc b hlookup
    have henable : f.enable ≠ none := Option.ne_none_iff_exists'.2 ⟨e, he⟩
    obtain ⟨hbit, -⟩ := enable_field_bit l f hf henable
    exact ⟨f, hf, e, he, hlo, hbit.symm.trans hlo, hexc, hctx⟩
  · rintro ⟨f, hf, e, he, rfl, -, rfl, hctx⟩
    exact vcEnableBit_of_field l ctx f hf e he hctx

/-- The lookup gives only bits that are enables of the layout. -/
theorem getLsbD_enableMask_of_vcEnableBit {l : Layout} {ctx : Ctx} {exc : Exc} {b : Nat}
    (hlookup : vcEnableBit l ctx exc = some b) : (enableMask l).getLsbD b = true := by
  obtain ⟨f, hf, e, he, rfl, -⟩ := (lookupFindsTheNamedField l ctx exc b).1 hlookup
  exact getLsbD_enableMask_of_field hf (Option.ne_none_iff_exists'.2 ⟨e, he⟩)

/-- Two values are looked up alike when they agree in the bit that the lookup gives. -/
theorem vcEnabled_congr {l : Layout} {ctx : Ctx} {exc : Exc} {v w : Word}
    (h : ∀ b, vcEnableBit l ctx exc = some b → v.getLsbD b = w.getLsbD b) :
    vcEnabled l ctx exc v = vcEnabled l ctx exc w := by
  unfold vcEnabled
  cases hlookup : vcEnableBit l ctx exc with
  | none => rfl
  | some b => exact h b hlookup

/-- D13: a catch is enabled exactly when the bit that the lookup gives is 1. -/
theorem vcEnabled_iff {l : Layout} {ctx : Ctx} {exc : Exc} {v : Word} :
    vcEnabled l ctx exc v = true ↔ ∃ b, vcEnableBit l ctx exc = some b ∧ v.getLsbD b = true := by
  unfold vcEnabled
  cases vcEnableBit l ctx exc <;> simp

/-- A value without its reserved bits is looked up as with them. -/
theorem vcEnabled_and_enableMask (l : Layout) (ctx : Ctx) (exc : Exc) (v : Word) :
    vcEnabled l ctx exc (v &&& enableMask l) = vcEnabled l ctx exc v :=
  vcEnabled_congr fun b hlookup => by
    rw [BitVec.getLsbD_and, getLsbD_enableMask_of_vcEnableBit hlookup, Bool.and_true]

/-- Settles O32: the lookup does not see the reserved bits. -/
theorem reservedBitsEnableNothing : Obligations.ReservedBitsEnableNothing := by
  intro l ctx exc v w hsame
  rw [← vcEnabled_and_enableMask l ctx exc v, hsame, vcEnabled_and_enableMask]

/-- A value that sets no enable of the layout enables no catch. -/
theorem vcEnabled_eq_false_of_no_enable {l : Layout} {v : Word} (hzero : v &&& enableMask l = 0#32) (ctx : Ctx)
    (exc : Exc) : vcEnabled l ctx exc v = false := by
  rw [← vcEnabled_and_enableMask, hzero, ← Bool.not_eq_true, vcEnabled_iff]
  simp

/-- What a write leaves is looked up as the value that was written. -/
theorem vcEnabled_storedOfWrite (c : Config) (ctx : Ctx) (exc : Exc) (v : Word) :
    vcEnabled (layoutOf c) ctx exc (storedOfWrite c v) = vcEnabled (layoutOf c) ctx exc v :=
  vcEnabled_congr fun _ hlookup => getLsbD_storedOfWrite_enable (getLsbD_enableMask_of_vcEnableBit hlookup) v

/-! ### What the generator finds -/

/-- R156: at a synchronisation point the generator sees `stored`, whatever the draw. -/
@[simp] theorem vcView_sync (draw : Word) (s : State) : s.sync.vcView draw = s.stored := by
  simp [State.vcView]

/-- After a write of a register that is present and a synchronisation point, whatever the steps after them are, the
generator finds what the lookup says of the written value. -/
theorem catchEnabled_sync_transfer_write {s : State} (hpresent : s.cfg.featAA32EL1 = true) (t : RegIx) (ms : List Move)
    (draw : Word) (ctx : Ctx) (exc : Exc) :
    ((transfer .write t s).setSchedule ms).sync.catchEnabled draw ctx exc =
      vcEnabled (layoutOf s.cfg) ctx exc (s.reg t) := by
  rw [State.catchEnabled, vcView_sync, setSchedule_stored, stored_transfer_write]
  simp [hpresent, vcEnabled_storedOfWrite]

/-- Settles O35: the instruction is the write transfer, and the synchronisation point shows the generator what it
stored. -/
theorem catchFollowsTheWrittenBit : Obligations.CatchFollowsTheWrittenBit := by
  intro s i t ms hdir hnames hruns hallowed hsched
  have hpresent : s.cfg.featAA32EL1 = true := hallowed.1
  have hexec : exec i s = .next (transfer .write t s) := hdir ▸ exec_of_allowed hnames hruns hallowed
  have hsync : step (transfer .write t s) = .next ((transfer .write t s).setSchedule ms).sync :=
    step_of_agent (s := transfer .write t s) hsched
  refine ⟨_, _, hexec, hsync, fun draw ctx exc => ?_, fun hzero draw ctx exc => ?_⟩
  · rw [catchEnabled_sync_transfer_write hpresent, vcEnabled_iff]
  · rw [catchEnabled_sync_transfer_write hpresent, vcEnabled_eq_false_of_no_enable hzero]

end Sys2Proof.Machine

/-! ### The reset event -/

namespace Sys2Proof.Machine

/-- R151: a reset of a register that is present is a write of the draw, under the same reserved-bit behaviour. -/
theorem resetEvent_of_present {s : State} (hpresent : s.cfg.featAA32EL1 = true) (draw : Word) :
    s.resetEvent draw = s.writeDbgvcr draw :=
  if_pos hpresent

/-- R151: a reset leaves a state without the register as it is. -/
theorem resetEvent_of_absent {s : State} (habsent : s.cfg.featAA32EL1 = false) (draw : Word) :
    s.resetEvent draw = s :=
  if_neg (by simp [habsent])

/-- Settles O29: the move writes the draw where the register is present, and nothing where it is absent. -/
theorem resetEventDrawsTheRegister : Obligations.ResetEventDrawsTheRegister := by
  intro s d ms hsched
  have hstep : step s = .next ((s.setSchedule ms).resetEvent d) := step_of_agent hsched
  cases hfeat : s.cfg.featAA32EL1 with
  | true =>
    rw [resetEvent_of_present (s := s.setSchedule ms) hfeat] at hstep
    exact ⟨_, hstep, fun _ hm => storedOfWrite_razWi hm d, fun _ hm => storedOfWrite_rwNoEffect hm d, nofun,
      fun _ _ => mem_addValue, rfl⟩
  | false =>
    rw [resetEvent_of_absent (s := s.setSchedule ms) hfeat] at hstep
    exact ⟨_, hstep, nofun, nofun, fun _ => ⟨rfl, rfl⟩, nofun, rfl⟩

end Sys2Proof.Machine

/-! ### The views that the history leaves open -/

namespace Sys2Proof.Machine

/-- Each bit of the view is the bit of `stored`, flipped where the draw has a 1 and the history leaves the bit open. -/
theorem getLsbD_vcView (draw : Word) (s : State) (b : Nat) :
    (s.vcView draw).getLsbD b =
      (s.stored.getLsbD b ^^ (draw.getLsbD b && (openBits s.stored s.history).getLsbD b)) := by
  simp only [State.vcView, BitVec.getLsbD_xor, BitVec.getLsbD_and]

/-- R156's choice for one bit, said by the open bits: of the two values a bit has, the one that is not in `stored` is in
some value of the history exactly when the history leaves the bit open. -/
theorem bit_allowed_iff (s : State) (x : Bool) (b : Nat) :
    (x = s.stored.getLsbD b ∨ ∃ h ∈ s.history, x = h.getLsbD b) ↔
      (x ≠ s.stored.getLsbD b → (openBits s.stored s.history).getLsbD b = true) := by
  rw [getLsbD_openBits]
  constructor
  · rintro (hstored | ⟨h, hmem, rfl⟩) hne
    · exact absurd hstored hne
    · exact ⟨h, hmem, hne⟩
  · intro hopen
    by_cases hx : x = s.stored.getLsbD b
    · exact .inl hx
    · obtain ⟨h, hmem, hne⟩ := hopen hx
      exact .inr ⟨h, hmem, (Bool.eq_not.2 hx).trans (Bool.eq_not.2 hne).symm⟩

/-- R156 allows a view exactly when it differs from `stored` in bits that the history leaves open. -/
theorem vcViewAllowed_iff_openBits (s : State) (v : Word) :
    s.VcViewAllowed v ↔
      ∀ b < 32, v.getLsbD b ≠ s.stored.getLsbD b → (openBits s.stored s.history).getLsbD b = true :=
  forall₂_congr fun b _ => bit_allowed_iff s (v.getLsbD b) b

/-- Every draw gives a view that R156 allows. -/
theorem vcViewAllowed_vcView (draw : Word) (s : State) : s.VcViewAllowed (s.vcView draw) := by
  rw [vcViewAllowed_iff_openBits]
  intro b _ hne
  refine Bool.of_not_eq_false fun hclosed => hne ?_
  rw [getLsbD_vcView, hclosed, Bool.and_false, Bool.xor_false]

/-- A view that R156 allows comes of the draw that has a 1 in each bit where the view differs from `stored`. -/
theorem vcView_xor_stored {s : State} {v : Word} (hallowed : s.VcViewAllowed v) : s.vcView (v ^^^ s.stored) = v := by
  rw [vcViewAllowed_iff_openBits] at hallowed
  apply BitVec.eq_of_getLsbD_eq
  intro b hb
  rw [getLsbD_vcView, BitVec.getLsbD_xor]
  by_cases hsame : v.getLsbD b = s.stored.getLsbD b
  · simp [hsame]
  · rw [hallowed b hb hsame, Bool.and_true, Bool.xor_left_comm, Bool.xor_self, Bool.xor_false]

/-- Settles O33: every draw gives an allowed view, and an allowed view comes of the draw of its differences from
`stored`. -/
theorem drawsGiveExactlyTheAllowedViews : Obligations.DrawsGiveExactlyTheAllowedViews := fun s v =>
  ⟨fun hallowed => ⟨v ^^^ s.stored, vcView_xor_stored hallowed⟩,
    fun ⟨draw, hview⟩ => hview ▸ vcViewAllowed_vcView draw s⟩

/-! ### The window that a synchronisation point closes -/

/-- R156: a write after a synchronisation point opens exactly the choice, bit by bit, between the old value and the new,
whatever the steps after it are. -/
theorem vcViewAllowed_transfer_write_sync (t : RegIx) (s : State) (v : Word) :
    (transfer .write t s.sync).VcViewAllowed v ↔
      ∀ b < 32, v.getLsbD b = s.stored.getLsbD b ∨ v.getLsbD b = (storedOfWrite s.cfg (s.reg t)).getLsbD b := by
  have hstored : (transfer .write t s.sync).stored = storedOfWrite s.cfg (s.reg t) := rfl
  have hhistory (h : Word) :
      h ∈ (transfer .write t s.sync).history ↔ h = storedOfWrite s.cfg (s.reg t) ∨ h = s.stored :=
    mem_addValue.trans (or_congr_right List.mem_singleton)
  refine forall₂_congr fun b _ => ?_
  simp only [hstored, hhistory, or_and_right, exists_or, exists_eq_left, or_self_left]
  exact or_comm

/-- Settles O34: the move is the synchronisation point, and an allowed MCR after it is the write transfer. -/
theorem synchronisationClosesTheWindow : Obligations.SynchronisationClosesTheWindow := by
  intro s ms hsched
  refine ⟨(s.setSchedule ms).sync, step_of_agent hsched, rfl, fun draw => vcView_sync draw _, ?_⟩
  intro i t hdir hnames hruns hallowed
  refine ⟨transfer .write t (s.setSchedule ms).sync, hdir ▸ exec_of_allowed hnames hruns hallowed, fun v => ?_⟩
  exact vcViewAllowed_transfer_write_sync t (s.setSchedule ms) v

end Sys2Proof.Machine

/-! ### The words of the test vectors -/

namespace Sys2Proof

/-- R88: in either set, an access word of another location is "not mine", whatever its other fields. -/
theorem decodeWord_accessWord_of_loc_ne {loc : SysRegLoc} (hloc : loc ≠ dbgvcrLoc) (set : InstrSet) (top : BitVec 4)
    (dir : Direction) (rt : BitVec 4) : decodeWord set (accessWord top loc dir rt) = .error .notMine := by
  have hfields : accessFields (accessWord top loc dir rt) = some ⟨dir, loc, rt⟩ := (eq_accessWord_iff.1 rfl).2
  have hmine (instr : AccessFields → Instr) :
      mine (accessFields (accessWord top loc dir rt)) instr = .error .notMine := by
    rw [hfields, mine, if_neg hloc]
  cases set <;> simp only [decodeWord, hmine, ite_self]

/-- Settles O2: five of the words are the encodings of the instructions that the vectors give, and the other two are
access words of a location with another opc2 (E11) and another CRn (E13). -/
theorem wordsOfTheTestVectorsDecode : Obligations.WordsOfTheTestVectorsDecode := by
  refine ⟨?e1, ?e4, ?e8, ?e16, ?e17, ?e11, ?e13⟩
  case e11 =>
    have hloc : { dbgvcrLoc with opc2 := 0b001#3 } ≠ dbgvcrLoc := by decide
    exact decodeWord_accessWord_of_loc_ne hloc .a32 0b1110#4 .read 0#4
  case e13 =>
    have hloc : { dbgvcrLoc with crn := 0b0001#4 } ≠ dbgvcrLoc := by decide
    exact decodeWord_accessWord_of_loc_ne hloc .a32 0b1110#4 .read 0#4
  all_goals exact decodeWord_eq_ok_iff.2 ⟨rfl, rfl, rfl⟩

end Sys2Proof
